-- ==== Sys2Proof/Word.lean ====
section
/-! DEFINITION. The word types of the block: a byte of storage or of the wire (00_scope.md R8) and a 16-bit pair
(20_memory.md R50). -/

namespace Sys2Proof

/-- An unsigned integer in 0..255 (R8). -/
abbrev Byte := BitVec 8

/-- A 16-bit value of the wire, before it is read as signed or unsigned (R50, R64). -/
abbrev Half := BitVec 16

end Sys2Proof
end

