-- ==== Sys2Proof/Config.lean ====
section
/-! DEFINITION. The parameters and constants of 00_scope.md R5: what is fixed when the block is built. -/

namespace Sys2Proof

/-- The OPEN parameters of R5: arguments of the model, fixed when the block is built. -/
structure Config where
  /-- `CAPACITY`: bytes of buffer storage, an integer of at least 1 (R5, D4). -/
  capacity  : Nat
  /-- `FID_TIME`. -/
  fidTime   : Byte
  /-- `FID_GYRO`. -/
  fidGyro   : Byte
  /-- `FID_ANGLE`. -/
  fidAngle  : Byte
  /-- `FID_MAG`. -/
  fidMag    : Byte
  /-- `FID_QUAT`. -/
  fidQuat   : Byte
  /-- `REG_RSW`: target register of a read request. -/
  regRsw    : Byte
  /-- `REG_UNLOCK`. -/
  regUnlock : Byte
  /-- `VAL_UNLOCK`. -/
  valUnlock : Byte
  /-- `REG_RATE`. -/
  regRate   : Byte
  /-- `REG_SAVE`. -/
  regSave   : Byte
  /-- `VAL_SAVE`. -/
  valSave   : Byte
  deriving DecidableEq, Repr

/-- `START`, frame byte 0 (R5). -/
def START : Byte := 0x55
/-- `FID_ACC`, the one family id the source fixes (R5, R75). -/
def FID_ACC : Byte := 0x51
/-- `FRAME_LEN` (R5). -/
def FRAME_LEN : Nat := 11
/-- `REQ_LEN` (R5). -/
def REQ_LEN : Nat := 5
/-- `HDR0`, request byte 0 (R5, R73). -/
def HDR0 : Byte := 0xFF
/-- `HDR1`, request byte 1 (R5, R73). -/
def HDR1 : Byte := 0xAA
/-- `REQ_TAIL`, request byte 4 (R5, R73). -/
def REQ_TAIL : Byte := 0x00
/-- `G_TIME`, bit 0 of a group mask (R5, R82). -/
def G_TIME : Byte := 0x01
/-- `G_ACC`, bit 1. -/
def G_ACC : Byte := 0x02
/-- `G_GYRO`, bit 2. -/
def G_GYRO : Byte := 0x04
/-- `G_ANGLE`, bit 3. -/
def G_ANGLE : Byte := 0x08
/-- `G_MAG`, bit 4. -/
def G_MAG : Byte := 0x10

/-- The six family ids, in the order of R75. -/
def Config.familyIds (c : Config) : List Byte :=
  [c.fidTime, FID_ACC, c.fidGyro, c.fidAngle, c.fidMag, c.fidQuat]

/-- What R5 asks of a configuration: `CAPACITY` ≥ 1, and the six family ids pairwise distinct. -/
abbrev Config.wf (c : Config) : Prop := 1 ≤ c.capacity ∧ c.familyIds.Nodup

/-- The defaults of R5. PRESUMED: all but `capacity` come from the spec's general knowledge (G1 to G3), not from the
source (log 3). Unsafe if a default is wrong; no statement for the provers rests on one but where it says so. -/
def Config.default : Config where
  capacity  := 256
  fidTime   := 0x50
  fidGyro   := 0x52
  fidAngle  := 0x53
  fidMag    := 0x54
  fidQuat   := 0x59
  regRsw    := 0x02
  regUnlock := 0x69
  valUnlock := 0x88
  regRate   := 0x03
  regSave   := 0x00
  valSave   := 0x00

end Sys2Proof
end

