-- ==== Sys2Proof/Syntax.lean ====
section
/-! DEFINITION. The instructions: one constructor per row of spec/opcode_table.json (30_encoding.md R70, R75, R84,
R87). -/

namespace Sys2Proof

/-- The six register families (R75); also the six field groups of the record (10_state.md R26). -/
inductive Family where
  | time | acc | gyro | angle | mag | quat
  deriving DecidableEq, Repr

/-- The eight payload bytes of a frame, `frame[2]` to `frame[9]` (R72). -/
structure Payload where
  b2 : Byte
  b3 : Byte
  b4 : Byte
  b5 : Byte
  b6 : Byte
  b7 : Byte
  b8 : Byte
  b9 : Byte
  deriving DecidableEq, Repr

/-- The rows of the opcode table. -/
inductive Instr where
  /-- APPEND (R100). -/
  | append (data : List Byte)
  /-- CONSUME (R101). -/
  | consume (size : Nat)
  /-- PEEK (R102). -/
  | peek
  /-- SYNC (R120). -/
  | sync
  /-- VERIFY (R131). -/
  | verify (frame : List Byte)
  /-- DECODE (R140). -/
  | decode (frame : List Byte)
  /-- PROCESS (R190). -/
  | process
  /-- ENC_READ (R170). -/
  | encRead (mask : Byte)
  /-- ENC_CFG (R176). -/
  | encCfg (reg val : Byte)
  /-- FLUSH (R103). -/
  | flush
  /-- ILLEGAL: `op` 0x0 or 0xB to 0xF (R84, R210). -/
  | illegal (op : BitVec 4)
  /-- DEC_TIME: the frame with id `FID_TIME`, this payload and this last byte (R143). -/
  | decTime (p : Payload) (ck : Byte)
  /-- DEC_ACC (R144). -/
  | decAcc (p : Payload) (ck : Byte)
  /-- DEC_GYRO (R145). -/
  | decGyro (p : Payload) (ck : Byte)
  /-- DEC_ANGLE (R146). -/
  | decAngle (p : Payload) (ck : Byte)
  /-- DEC_MAG (R147). -/
  | decMag (p : Payload) (ck : Byte)
  /-- DEC_QUAT (R148). -/
  | decQuat (p : Payload) (ck : Byte)
  /-- DEC_UNKNOWN: a frame whose id `fid` is none of the six (R149). -/
  | decUnknown (fid : Byte) (p : Payload) (ck : Byte)
  /-- READ_TIME (R171). -/
  | readTime
  /-- READ_ACC (R172). -/
  | readAcc
  /-- READ_GYRO (R173). -/
  | readGyro
  /-- READ_ANGLE (R174). -/
  | readAngle
  /-- READ_MAG (R175). -/
  | readMag
  /-- UNLOCK (R177). -/
  | unlock
  /-- SET_RATE (R178). -/
  | setRate (r : Byte)
  /-- SAVE (R179). -/
  | save
  deriving DecidableEq, Repr

/-- Why the decoder takes a message for no instruction (log 12). -/
inductive Rejection where
  /-- The message has no byte. -/
  | emptyMessage
  /-- The first byte is neither the start marker nor a 4-bit `op`. -/
  | notAnOp (b : Byte)
  /-- The command `op` has an operand of another length than the `n` bytes given. -/
  | operandBytes (op : BitVec 4) (n : Nat)
  /-- The message begins with the start marker and has `n` bytes, not 11. -/
  | frameBytes (n : Nat)
  deriving DecidableEq, Repr

/-- What the decoder answers. -/
inductive Decoded where
  | ok (i : Instr)
  | reject (r : Rejection)
  deriving DecidableEq, Repr

/-- The instruction a decoding gives, if it gives one. -/
def Decoded.toOption : Decoded → Option Instr
  | .ok i => some i
  | .reject _ => none

end Sys2Proof
end

