-- ==== Sys2Proof/WellFormed.lean ====
section
/-! DEFINITION. Which terms of `Instr` are rows of the opcode table under a configuration. -/

namespace Sys2Proof

/-- The `op` values of the ILLEGAL row: 0x0 and 0xB to 0xF (30_encoding.md R84, R88). -/
def illegalOp (op : BitVec 4) : Bool := op.toNat == 0 || 11 ≤ op.toNat

/-- Well-formed: an ILLEGAL op is not that of a command (R84), and the id of a DEC_UNKNOWN frame is none of the six
(R75). Every other term has operands that its type already bounds (R71). -/
def Instr.wf (cfg : Config) : Instr → Bool
  | .append _ => true
  | .consume _ => true
  | .peek => true
  | .sync => true
  | .verify _ => true
  | .decode _ => true
  | .process => true
  | .encRead _ => true
  | .encCfg _ _ => true
  | .flush => true
  | .illegal op => illegalOp op
  | .decTime _ _ => true
  | .decAcc _ _ => true
  | .decGyro _ _ => true
  | .decAngle _ _ => true
  | .decMag _ _ => true
  | .decQuat _ _ => true
  | .decUnknown fid _ _ => !cfg.familyIds.contains fid
  | .readTime => true
  | .readAcc => true
  | .readGyro => true
  | .readAngle => true
  | .readMag => true
  | .unlock => true
  | .setRate _ => true
  | .save => true

end Sys2Proof
end

