-- ==== Sys2Proof/Decode.lean ====
section
/-! DEFINITION. Decoding a message of the port to an instruction, and encoding an instruction to its message
(30_encoding.md R70, R72, R75, R84, R87, R88). The spec gives `op` four bits and lists the operands; the layout of a
message in bytes is the model's own (DESIGN CHOICE, log 4, safe: every instruction has a message). -/

namespace Sys2Proof

/-! ## The op numbers (R70) -/

def OP_APPEND : BitVec 4 := 0x1
def OP_CONSUME : BitVec 4 := 0x2
def OP_PEEK : BitVec 4 := 0x3
def OP_SYNC : BitVec 4 := 0x4
def OP_VERIFY : BitVec 4 := 0x5
def OP_DECODE : BitVec 4 := 0x6
def OP_PROCESS : BitVec 4 := 0x7
def OP_ENC_READ : BitVec 4 := 0x8
def OP_ENC_CFG : BitVec 4 := 0x9
def OP_FLUSH : BitVec 4 := 0xA

/-! ## Frames (R72) -/

/-- The bytes of a payload in the order they arrive (R72). -/
def Payload.bytes (p : Payload) : List Byte := [p.b2, p.b3, p.b4, p.b5, p.b6, p.b7, p.b8, p.b9]

/-- The 11 bytes of a frame of family id `fid` with payload `p` and last byte `ck` (R72). -/
def Payload.frame (p : Payload) (fid ck : Byte) : List Byte := START :: fid :: (p.bytes ++ [ck])

/-! ## The family ids (R75) -/

/-- The family a frame's byte 1 selects, none for "any other value" (R75). -/
def familyOf (cfg : Config) (fid : Byte) : Option Family :=
  if fid = cfg.fidTime then some .time
  else if fid = FID_ACC then some .acc
  else if fid = cfg.fidGyro then some .gyro
  else if fid = cfg.fidAngle then some .angle
  else if fid = cfg.fidMag then some .mag
  else if fid = cfg.fidQuat then some .quat
  else none

/-- The id of a family (R75). -/
def familyId (cfg : Config) : Family → Byte
  | .time => cfg.fidTime
  | .acc => FID_ACC
  | .gyro => cfg.fidGyro
  | .angle => cfg.fidAngle
  | .mag => cfg.fidMag
  | .quat => cfg.fidQuat

/-! ## Numbers and bytes -/

/-- The number whose bytes, least significant first, are given. -/
def natOfBytes : List Byte → Nat
  | [] => 0
  | b :: bs => b.toNat + 256 * natOfBytes bs

/-- The bytes of `n`, least significant first, none after the last that is not zero; `fuel` bounds their number. -/
def bytesOfNatFuel : Nat → Nat → List Byte
  | 0, _ => []
  | fuel + 1, n => if n = 0 then [] else BitVec.ofNat 8 n :: bytesOfNatFuel fuel (n / 256)

/-- The bytes of `n`, least significant first; none for 0. -/
def bytesOfNat (n : Nat) : List Byte := bytesOfNatFuel (n.log2 + 1) n

/-! ## Decoding -/

/-- A command whose row has no operand: no byte follows its op. -/
def bare (op : BitVec 4) (i : Instr) (rest : List Byte) : Decoded :=
  if rest = [] then .ok i else .reject (.operandBytes op rest.length)

/-- The operands of ENC_READ: one byte, the mask (R70). -/
def decodeEncRead : List Byte → Decoded
  | [mask] => .ok (.encRead mask)
  | rest => .reject (.operandBytes OP_ENC_READ rest.length)

/-- The operands of ENC_CFG: two bytes, the register and the value (R70). -/
def decodeEncCfg : List Byte → Decoded
  | [reg, val] => .ok (.encCfg reg val)
  | rest => .reject (.operandBytes OP_ENC_CFG rest.length)

/-- A command: its op and the bytes of its operands (R70). An op of no row is ILLEGAL "before any operand is looked
at" (60_exceptions.md R213). -/
def decodeCommand (op : BitVec 4) (rest : List Byte) : Decoded :=
  if op = OP_APPEND then .ok (.append rest)
  else if op = OP_CONSUME then .ok (.consume (natOfBytes rest))
  else if op = OP_PEEK then bare op .peek rest
  else if op = OP_SYNC then bare op .sync rest
  else if op = OP_VERIFY then .ok (.verify rest)
  else if op = OP_DECODE then .ok (.decode rest)
  else if op = OP_PROCESS then bare op .process rest
  else if op = OP_ENC_READ then decodeEncRead rest
  else if op = OP_ENC_CFG then decodeEncCfg rest
  else if op = OP_FLUSH then bare op .flush rest
  else .ok (.illegal op)

/-- The FRAME11 row of a family, DEC_UNKNOWN for none (R75). -/
def rowOf (fid : Byte) (p : Payload) (ck : Byte) : Option Family → Instr
  | some .time => .decTime p ck
  | some .acc => .decAcc p ck
  | some .gyro => .decGyro p ck
  | some .angle => .decAngle p ck
  | some .mag => .decMag p ck
  | some .quat => .decQuat p ck
  | none => .decUnknown fid p ck

/-- The FRAME11 row a frame selects by its byte 1; DEC_UNKNOWN "only when none of them matches" (R75, R88). -/
def frameRow (cfg : Config) (fid : Byte) (p : Payload) (ck : Byte) : Instr := rowOf fid p ck (familyOf cfg fid)

/-- A message that begins with the start marker: `rest` holds its other bytes (R72). The checks of R140 on the
checksum are in the row's meaning, not here. -/
def decodeFrame (cfg : Config) : List Byte → Decoded
  | [fid, b2, b3, b4, b5, b6, b7, b8, b9, ck] => .ok (frameRow cfg fid ⟨b2, b3, b4, b5, b6, b7, b8, b9⟩ ck)
  | rest => .reject (.frameBytes (rest.length + 1))

/-- Decoding, total on every message. The first byte is the start marker of a bare frame (log 5) or an op in its low
four bits with the high four bits zero (log 4). -/
def decodeMessage (cfg : Config) : List Byte → Decoded
  | [] => .reject .emptyMessage
  | b :: rest =>
    if b = START then decodeFrame cfg rest
    else if b.toNat < 16 then decodeCommand (b.setWidth 4) rest
    else .reject (.notAnOp b)

/-! ## Encoding -/

/-- The first byte of a command's message. -/
def opByte (op : BitVec 4) : Byte := op.setWidth 8

/-- What a pseudo-instruction expands to (R87); every other instruction is itself. -/
def Instr.expand (cfg : Config) : Instr → Instr
  | .append data => .append data
  | .consume size => .consume size
  | .peek => .peek
  | .sync => .sync
  | .verify frame => .verify frame
  | .decode frame => .decode frame
  | .process => .process
  | .encRead mask => .encRead mask
  | .encCfg reg val => .encCfg reg val
  | .flush => .flush
  | .illegal op => .illegal op
  | .decTime p ck => .decTime p ck
  | .decAcc p ck => .decAcc p ck
  | .decGyro p ck => .decGyro p ck
  | .decAngle p ck => .decAngle p ck
  | .decMag p ck => .decMag p ck
  | .decQuat p ck => .decQuat p ck
  | .decUnknown fid p ck => .decUnknown fid p ck
  | .readTime => .encRead G_TIME
  | .readAcc => .encRead G_ACC
  | .readGyro => .encRead G_GYRO
  | .readAngle => .encRead G_ANGLE
  | .readMag => .encRead G_MAG
  | .unlock => .encCfg cfg.regUnlock cfg.valUnlock
  | .setRate r => .encCfg cfg.regRate r
  | .save => .encCfg cfg.regSave cfg.valSave

/-- The message of an instruction. A pseudo-instruction has the message of the command it expands to (R87, log 6). -/
def encode (cfg : Config) : Instr → List Byte
  | .append data => opByte OP_APPEND :: data
  | .consume size => opByte OP_CONSUME :: bytesOfNat size
  | .peek => [opByte OP_PEEK]
  | .sync => [opByte OP_SYNC]
  | .verify frame => opByte OP_VERIFY :: frame
  | .decode frame => opByte OP_DECODE :: frame
  | .process => [opByte OP_PROCESS]
  | .encRead mask => [opByte OP_ENC_READ, mask]
  | .encCfg reg val => [opByte OP_ENC_CFG, reg, val]
  | .flush => [opByte OP_FLUSH]
  | .illegal op => [opByte op]
  | .decTime p ck => p.frame cfg.fidTime ck
  | .decAcc p ck => p.frame FID_ACC ck
  | .decGyro p ck => p.frame cfg.fidGyro ck
  | .decAngle p ck => p.frame cfg.fidAngle ck
  | .decMag p ck => p.frame cfg.fidMag ck
  | .decQuat p ck => p.frame cfg.fidQuat ck
  | .decUnknown fid p ck => p.frame fid ck
  | .readTime => [opByte OP_ENC_READ, G_TIME]
  | .readAcc => [opByte OP_ENC_READ, G_ACC]
  | .readGyro => [opByte OP_ENC_READ, G_GYRO]
  | .readAngle => [opByte OP_ENC_READ, G_ANGLE]
  | .readMag => [opByte OP_ENC_READ, G_MAG]
  | .unlock => [opByte OP_ENC_CFG, cfg.regUnlock, cfg.valUnlock]
  | .setRate r => [opByte OP_ENC_CFG, cfg.regRate, r]
  | .save => [opByte OP_ENC_CFG, cfg.regSave, cfg.valSave]

/-! ## Words as spec/opcode_table.json numbers them (log 7) -/

/-- `n` bytes of `w`, the one with bit 0 first. -/
def wordBytes : Nat → Nat → List Byte
  | 0, _ => []
  | n + 1, w => BitVec.ofNat 8 w :: wordBytes n (w / 256)

/-- How many operand bytes a command's row has, where its length is fixed or, for a frame operand, 11 (R70). -/
def operandLength (op : Byte) : Nat :=
  if op = opByte OP_VERIFY ∨ op = opByte OP_DECODE then FRAME_LEN
  else if op = opByte OP_ENC_READ then 1
  else if op = opByte OP_ENC_CFG then 2
  else 0

/-- A message of a row's bits, with the operand bytes the row has no bits for as zeros. -/
def padMessage : List Byte → List Byte
  | [] => []
  | op :: rest => op :: (rest ++ List.replicate (operandLength op - rest.length) 0)

/-- The message of a table word of `nbits` bits. A word of 88 bits is a FRAME11 row: its bytes stand as the host numbers
them (the first at bit 0), or as R88 writes them (byte 0 leftmost), whichever begins with the start marker. DESIGN CHOICE
(log 7): where both do, because the last byte is the start marker too, the host's numbering is taken. -/
def tableMessage (nbits w : Nat) : List Byte :=
  let bytes := wordBytes ((nbits + 7) / 8) w
  if nbits = 88 then (if bytes.head? = some START then bytes else bytes.reverse) else padMessage bytes

/-- The instruction of a table word under the default configuration. -/
def decodeTableWord (nbits w : Nat) : Option Instr := (decodeMessage Config.default (tableMessage nbits w)).toOption

end Sys2Proof
end

