-- ==== Sys2Proof/Machine/State.lean ====
section
/-! DEFINITION. The state of the block as plain data (10_state.md), the reasons a step can stop, and the state after
reset. -/

namespace Sys2Proof.Machine

/-! ## The storage (R20) -/

/-- The storage: (index, byte) pairs, the indices rising, none with the byte an unlisted index reads as. -/
abbrev Memory := List Host.Cell

/-- What an unlisted index reads as. DESIGN CHOICE (log 8): the spec leaves it open (R39, U4); unsafe, but no result of
a command depends on it (R38). -/
def unlistedByte : Byte := 0x00

/-! ## The MeasurementRecord (R26 to R34) -/

/-- The time group (R27). -/
structure TimeGroup where
  year        : Byte
  month       : Byte
  day         : Byte
  hour        : Byte
  minute      : Byte
  second      : Byte
  millisecond : Half
  deriving DecidableEq, Repr

/-- One 16-bit register per axis, in payload order (R28, R29, R31, R32). -/
structure Axes where
  axis0 : Half
  axis1 : Half
  axis2 : Half
  deriving DecidableEq, Repr

/-- The components Q0 to Q3 (R33). -/
structure Quaternion where
  q0 : Half
  q1 : Half
  q2 : Half
  q3 : Half
  deriving DecidableEq, Repr

/-- The six valid bits (R34). -/
structure ValidBits where
  time  : Bool
  acc   : Bool
  gyro  : Bool
  angle : Bool
  mag   : Bool
  quat  : Bool
  deriving DecidableEq, Repr

/-- The MeasurementRecord `rec` (R26). A field holds the 16 bits of the wire; whether they are read as signed is said
by `Record.field` (R142). -/
structure Record where
  time       : TimeGroup
  acc        : Axes
  gyro       : Axes
  /-- `rec.temp_raw`, one slot for two groups (R30). -/
  tempRaw    : Half
  angle      : Axes
  version    : Half
  mag        : Axes
  /-- `rec.mag_temp_raw`, a register of its own (R32). -/
  magTempRaw : Half
  quat       : Quaternion
  valid      : ValidBits
  deriving DecidableEq, Repr

/-- The fields of the record one by one (R142). -/
inductive RecordField where
  | year | month | day | hour | minute | second | millisecond
  | accRaw (axis : Fin 3)
  | gyroRaw (axis : Fin 3)
  | tempRaw
  | angleRaw (axis : Fin 3)
  | version
  | mag (axis : Fin 3)
  | magTempRaw
  | quatRaw (component : Fin 4)
  deriving DecidableEq, Repr

/-! ## Responses (60_exceptions.md R200) -/

/-- The ten statuses. -/
inductive Status where
  | ok | failNoSpace | failUnderrun | noStart | incomplete | checksumMismatch | unknownRegister | badLength
  | badStart | illegalOp
  deriving DecidableEq, Repr

/-- What a command gives back: its status and its outputs (R10, R70). -/
structure Response where
  status : Status
  bytes  : List Byte
  family : Option Family
  deriving DecidableEq, Repr

/-! ## The inputs of the agents (R12, R221) -/

/-- What the publisher asks to read (R40, R221). -/
inductive PublisherRead where
  | validBits
  | group (f : Family)
  | field (x : RecordField)
  deriving DecidableEq, Repr

/-- One thing an agent does to the block between commands (R12, R221). -/
inductive Input where
  /-- A message at the command port. -/
  | command (message : List Byte)
  /-- Reset is asserted (R231). -/
  | reset
  /-- The publisher reads the record. -/
  | publish (read : PublisherRead)
  deriving DecidableEq, Repr

/-- What an input gets back. -/
inductive Output where
  /-- The response of a command. -/
  | response (r : Response)
  /-- The valid bits the publisher read. -/
  | validBits (v : ValidBits)
  /-- The fields the publisher read, with their raw integers. -/
  | fields (values : List (RecordField × Int))
  /-- The reader's fault: it read a group or a field that no valid bit covers, and gets no value (R39, U3; log 11). -/
  | readerFault (read : PublisherRead)
  deriving DecidableEq, Repr

/-! ## The state -/

/-- The whole state: what R41 lists, and the model's own `cfg`, `port` and `out`. -/
structure State where
  /-- The build parameters, changed by nothing (R5; log 3). -/
  cfg       : Config
  /-- The storage (R20). -/
  mem       : Memory
  /-- Next byte to read (R21). -/
  head      : Nat
  /-- Next write position (R21). -/
  tail      : Nat
  /-- Bytes currently stored (R21). -/
  available : Nat
  /-- The MeasurementRecord (R26). -/
  record    : Record
  /-- The inputs to come, the next first. The model's own (log 1). -/
  port      : List Input
  /-- What the last input got back. The model's own, read by no meaning (log 2; R35). -/
  out       : Option Output
  deriving DecidableEq, Repr

/-! ## Why a step stops -/

/-- Faults of the machine: there are none. "No error kind in this core is fatal" (60_exceptions.md R215); the one fault
the spec names is the reader's (R39, U3), which stops the reader and not the block: `Output.readerFault`. -/
inductive Fault where
  deriving DecidableEq, Repr

/-- Refusals. -/
inductive Refusal where
  /-- An instruction with no meaning yet; raised by no arm. Safe. -/
  | notModelled (mnemonic : String)
  /-- A message that is no instruction of the spec; raised by `step`. Safe (log 12). -/
  | malformedMessage (why : Rejection)
  deriving DecidableEq, Repr

/-! ## Reset (R39, R230) -/

/-- The record after reset: all valid bits 0 (R39). DESIGN CHOICE (log 9): the other fields, which R39 leaves
unspecified, are zero; unsafe. -/
def Record.reset : Record where
  time := ⟨0, 0, 0, 0, 0, 0, 0⟩
  acc := ⟨0, 0, 0⟩
  gyro := ⟨0, 0, 0⟩
  tempRaw := 0
  angle := ⟨0, 0, 0⟩
  version := 0
  mag := ⟨0, 0, 0⟩
  magTempRaw := 0
  quat := ⟨0, 0, 0, 0⟩
  valid := ⟨false, false, false, false, false, false⟩

/-- The state after reset of a block built with the parameters `cfg` (R39, R230). -/
def State.resetWith (cfg : Config) : State where
  cfg := cfg
  mem := []
  head := 0
  tail := 0
  available := 0
  record := Record.reset
  port := []
  out := none

/-- The state after reset of the block with the default parameters. -/
def State.reset : State := State.resetWith Config.default

end Sys2Proof.Machine
end

