-- ==== Sys2Proof/Machine/Ops.lean ====
section
/-! DEFINITION. The named operations over the storage, the buffer registers and the response: `MemRead`, `MemWrite`,
`return` and `raise` of 00_scope.md R10, and what moves `head`. -/

namespace Sys2Proof.Machine

/-! ## The storage -/

/-- `mem[a]` (R10, R20). -/
def readByte : Memory → Nat → Byte
  | [], _ => unlistedByte
  | (x, v) :: m, a => if x = a then v else readByte m a

/-- `mem[a] <- b` (R10, R20), in the canonical form: the byte an unlisted index reads as is not listed. -/
def writeByte : Memory → Nat → Byte → Memory
  | [], a, b => if b = unlistedByte then [] else [(a, b)]
  | (x, v) :: m, a, b =>
    if a < x then (if b = unlistedByte then (x, v) :: m else (a, b) :: (x, v) :: m)
    else if a = x then (if b = unlistedByte then m else (a, b) :: m)
    else (x, v) :: writeByte m a b

/-- The canonical form: indices strictly rising from at least `lo`, no entry equal to what an unlisted index reads as. -/
def memoryWfFrom : Nat → Memory → Bool
  | _, [] => true
  | lo, (x, v) :: m => decide (lo ≤ x) && decide (v ≠ unlistedByte) && memoryWfFrom (x + 1) m

/-- The canonical form of the storage. -/
def Memory.wf (m : Memory) : Bool := memoryWfFrom 0 m

/-- Every listed index lies in the address space 0..CAPACITY-1 (R37). -/
def Memory.within (capacity : Nat) (m : Memory) : Bool := m.all fun c => decide (c.1 < capacity)

/-- `MemRead(addr, n)` (R10). -/
def memRead (capacity : Nat) (m : Memory) (addr n : Nat) : List Byte :=
  (List.range n).map fun k => readByte m ((addr + k) % capacity)

/-- `MemWrite(addr, len(v), v)` (R10), in the order k = 0, 1, … -/
def memWrite (capacity : Nat) : Memory → Nat → List Byte → Memory
  | m, _, [] => m
  | m, addr, b :: v => memWrite capacity (writeByte m (addr % capacity) b) (addr + 1) v

/-! ## The buffer registers -/

/-- The valid region: the `available` bytes from `head` on, oldest first (R22). -/
def State.validRegion (s : State) : List Byte := memRead s.cfg.capacity s.mem s.head s.available

/-- The first `n` bytes leave the valid region: `head` advances by `n` modulo CAPACITY, `available` drops by `n`
(R62, R101). The bytes stay in `mem` (R38). -/
def dropFront (n : Nat) (s : State) : State :=
  { s with head := (s.head + n) % s.cfg.capacity, available := s.available - n }

/-- `data` joins the valid region at `tail` (R100). -/
def pushBack (data : List Byte) (s : State) : State :=
  { s with
    mem := memWrite s.cfg.capacity s.mem s.tail data
    tail := (s.tail + data.length) % s.cfg.capacity
    available := s.available + data.length }

/-! ## Ending a command

What the checklist calls an exception is here a status (60_exceptions.md): taking one saves nothing and transfers
control nowhere (R214), and there is no handler to return from (R215). -/

/-- `return S, out` (R10, R200): the command ends; its response stands in `out` and nowhere else (R35). -/
def answer (status : Status) (bytes : List Byte) (family : Option Family) (s : State) : State :=
  { s with out := some (.response ⟨status, bytes, family⟩) }

/-- `raise S` (R10): a return with no outputs; state written earlier stays written. -/
def raise (status : Status) (s : State) : State := answer status [] none s

/-- The code of a status (R200). -/
def Status.code : Status → BitVec 4
  | .ok => 0x0
  | .failNoSpace => 0x1
  | .failUnderrun => 0x2
  | .noStart => 0x3
  | .incomplete => 0x4
  | .checksumMismatch => 0x5
  | .unknownRegister => 0x6
  | .badLength => 0x7
  | .badStart => 0x8
  | .illegalOp => 0x9

end Sys2Proof.Machine
end

