-- ==== Sys2Proof/Machine/Flags.lean ====
section
/-! DEFINITION. The valid bits of the record, the block's only flags (10_state.md R34, R35). -/

namespace Sys2Proof.Machine

/-- `rec.valid[f]` (R34). -/
def ValidBits.get (v : ValidBits) : Family → Bool
  | .time => v.time
  | .acc => v.acc
  | .gyro => v.gyro
  | .angle => v.angle
  | .mag => v.mag
  | .quat => v.quat

/-- `rec.valid[f] <- 1` (R34). -/
def ValidBits.set (v : ValidBits) : Family → ValidBits
  | .time => { v with time := true }
  | .acc => { v with acc := true }
  | .gyro => { v with gyro := true }
  | .angle => { v with angle := true }
  | .mag => { v with mag := true }
  | .quat => { v with quat := true }

end Sys2Proof.Machine
end

