-- ==== Sys2Proof/Machine/Operands.lean ====
section
/-! DEFINITION. Operand forms: the bytes of a frame, pairs of bytes as 16-bit values, signed reading, the checksum
(00_scope.md R9, R10; 20_memory.md R50, R63, R64; 30_encoding.md R72, R74). -/

namespace Sys2Proof.Machine

/-- `frame[k]`, counted from zero (R9). Used for k below the frame's length only. -/
def frameByte (frame : List Byte) (k : Nat) : Byte := frame.getD k 0

/-- `u16le(lo, hi)` = lo + 256 * hi (R10, R50). -/
def u16le (lo hi : Byte) : Half := BitVec.ofNat 16 (lo.toNat + 256 * hi.toNat)

/-- `s16(v)`: two's complement (R10, R64). -/
def s16 (v : Half) : Int := if v.toNat < 32768 then v.toNat else (v.toNat : Int) - 65536

/-- The unsigned reading of a pair (R64). -/
def u16 (v : Half) : Int := v.toNat

/-- The pair `Pi` of a frame as 16 bits: `frame[2+2i]` is its low byte (R74). -/
def pair (frame : List Byte) (i : Nat) : Half := u16le (frameByte frame (2 + 2 * i)) (frameByte frame (3 + 2 * i))

/-- `sum8(b)`: the sum of the bytes modulo 256 (R10, R63). -/
def sum8 (b : List Byte) : Byte := BitVec.ofNat 8 (b.map BitVec.toNat).sum

/-- `csum(frame)` = `sum8(frame[0..9])` (R130). -/
def csum (frame : List Byte) : Byte := sum8 (frame.take 10)

/-- The checksum test: `sum8(frame[0..9]) = frame[10]` (R131). -/
def checksumGood (frame : List Byte) : Bool := csum frame == frameByte frame 10

end Sys2Proof.Machine
end

