-- ==== Sys2Proof/Machine/RecordFile.lean ====
section
/-! DEFINITION. The MeasurementRecord: writing a family's group (44_register_decoder.md R141, R143 to R148), reading
its fields as integers, and their physical values (R142). -/

namespace Sys2Proof.Machine

/-! ## Writing a group, as a whole and in one step (R26) -/

/-- R143. -/
def writeTime (frame : List Byte) (r : Record) : Record :=
  { r with
    time :=
      { year := frameByte frame 2, month := frameByte frame 3, day := frameByte frame 4, hour := frameByte frame 5,
        minute := frameByte frame 6, second := frameByte frame 7, millisecond := pair frame 3 }
    valid := r.valid.set .time }

/-- R144: the temperature slot is written too. -/
def writeAcc (frame : List Byte) (r : Record) : Record :=
  { r with acc := ⟨pair frame 0, pair frame 1, pair frame 2⟩, tempRaw := pair frame 3, valid := r.valid.set .acc }

/-- R145: the same temperature slot. -/
def writeGyro (frame : List Byte) (r : Record) : Record :=
  { r with gyro := ⟨pair frame 0, pair frame 1, pair frame 2⟩, tempRaw := pair frame 3, valid := r.valid.set .gyro }

/-- R146: the last pair is the version. -/
def writeAngle (frame : List Byte) (r : Record) : Record :=
  { r with angle := ⟨pair frame 0, pair frame 1, pair frame 2⟩, version := pair frame 3, valid := r.valid.set .angle }

/-- R147: the last pair goes to a register of its own. -/
def writeMag (frame : List Byte) (r : Record) : Record :=
  { r with mag := ⟨pair frame 0, pair frame 1, pair frame 2⟩, magTempRaw := pair frame 3, valid := r.valid.set .mag }

/-- R148: Q3 from its own pair. -/
def writeQuat (frame : List Byte) (r : Record) : Record :=
  { r with quat := ⟨pair frame 0, pair frame 1, pair frame 2, pair frame 3⟩, valid := r.valid.set .quat }

/-- The group a family's frame writes (R141). -/
def writeFamily : Family → List Byte → Record → Record
  | .time => writeTime
  | .acc => writeAcc
  | .gyro => writeGyro
  | .angle => writeAngle
  | .mag => writeMag
  | .quat => writeQuat

/-! ## The fields (R27 to R33, R141) -/

/-- The fields of each family's group (R141). -/
def familyFields : Family → List RecordField
  | .time => [.year, .month, .day, .hour, .minute, .second, .millisecond]
  | .acc => [.accRaw 0, .accRaw 1, .accRaw 2, .tempRaw]
  | .gyro => [.gyroRaw 0, .gyroRaw 1, .gyroRaw 2, .tempRaw]
  | .angle => [.angleRaw 0, .angleRaw 1, .angleRaw 2, .version]
  | .mag => [.mag 0, .mag 1, .mag 2, .magTempRaw]
  | .quat => [.quatRaw 0, .quatRaw 1, .quatRaw 2, .quatRaw 3]

/-- The groups a field belongs to: one, but for the temperature slot (R30). -/
def RecordField.groups : RecordField → List Family
  | .year | .month | .day | .hour | .minute | .second | .millisecond => [.time]
  | .accRaw _ => [.acc]
  | .gyroRaw _ => [.gyro]
  | .tempRaw => [.acc, .gyro]
  | .angleRaw _ | .version => [.angle]
  | .mag _ | .magTempRaw => [.mag]
  | .quatRaw _ => [.quat]

/-- An axis by its index. -/
def Axes.get (a : Axes) (i : Fin 3) : Half :=
  match i with
  | 0 => a.axis0
  | 1 => a.axis1
  | 2 => a.axis2

/-- A component by its index. -/
def Quaternion.get (q : Quaternion) (i : Fin 4) : Half :=
  match i with
  | 0 => q.q0
  | 1 => q.q1
  | 2 => q.q2
  | 3 => q.q3

/-- The raw integer of a field, signed or unsigned as R142's second column says. -/
def Record.field (r : Record) : RecordField → Int
  | .year => r.time.year.toNat
  | .month => r.time.month.toNat
  | .day => r.time.day.toNat
  | .hour => r.time.hour.toNat
  | .minute => r.time.minute.toNat
  | .second => r.time.second.toNat
  | .millisecond => u16 r.time.millisecond
  | .accRaw i => s16 (r.acc.get i)
  | .gyroRaw i => s16 (r.gyro.get i)
  | .tempRaw => s16 r.tempRaw
  | .angleRaw i => s16 (r.angle.get i)
  | .version => u16 r.version
  | .mag i => u16 (r.mag.get i)
  | .magTempRaw => s16 r.magTempRaw
  | .quatRaw i => s16 (r.quat.get i)

/-- A field holds a defined value when a group it belongs to has its valid bit 1 (R34). -/
def Record.defined (r : Record) (x : RecordField) : Bool := x.groups.any r.valid.get

/-- The constant attribute "unreliable" (R32); not a bit of state. -/
def RecordField.unreliable : RecordField → Bool
  | .magTempRaw => true
  | _ => false

/-! ## Physical values: exact rationals, no rounding (R142) -/

/-- The physical value of a field from its raw integer (R142): m/s², deg/s, degrees, °C, or the bare number. -/
def RecordField.physical : RecordField → Int → Rat
  | .accRaw _, raw => raw * 49 / 10240
  | .gyroRaw _, raw => raw * 125 / 2048
  | .angleRaw _, raw => raw * 45 / 8192
  | .quatRaw _, raw => raw / 32768
  | .tempRaw, raw => raw / 100
  | .magTempRaw, raw => raw / 100
  | .mag _, raw => raw
  | .version, raw => raw
  | .millisecond, raw => raw
  | .year, raw => raw
  | .month, raw => raw
  | .day, raw => raw
  | .hour, raw => raw
  | .minute, raw => raw
  | .second, raw => raw

/-- The physical value of a field of the record. -/
def Record.value (r : Record) (x : RecordField) : Rat := x.physical (r.field x)

end Sys2Proof.Machine
end

