-- ==== Sys2Proof/Machine/Agents.lean ====
section
/-! DEFINITION. What the agents that issue no command do: reset (70_reset_and_hazards.md R230, R231) and the publisher
(10_state.md R39, R40). -/

namespace Sys2Proof.Machine

/-- Reset is asserted: every piece of state at its reset value, the parameters as they were (R230, R231), the inputs
still to come still to come (log 10). -/
def assertReset (s : State) : State := { State.resetWith s.cfg with port := s.port }

/-- What the publisher gets (R39, R40). A group whose valid bit is 0 "holds no value" (U3): reading it is "a fault of
the reader" (R39), which the answer says; the block itself goes on (R215). -/
def publisherAnswer (read : PublisherRead) (r : Record) : Output :=
  match read with
  | .validBits => .validBits r.valid
  | .group f => if r.valid.get f then .fields ((familyFields f).map fun x => (x, r.field x)) else .readerFault read
  | .field x => if r.defined x then .fields [(x, r.field x)] else .readerFault read

/-- The publisher reads the record "at any time" (R12); no side effect (R40). -/
def publisherRead (read : PublisherRead) (s : State) : State := { s with out := some (publisherAnswer read s.record) }

/-- An input at the port: the message of a table word (log 7). -/
def tableInput (nbits w : Nat) : Input := .command (tableMessage nbits w)

end Sys2Proof.Machine
end

