-- ==== Sys2Proof/Machine/Buffer.lean ====
section
/-! DEFINITION. The Circular Byte Buffer: APPEND, CONSUME, PEEK, FLUSH (41_circular_byte_buffer.md). -/

namespace Sys2Proof.Machine

/-- APPEND (R100). The test `CAPACITY - available < size` is over the integers (R8), so it is written as a sum
(log 14). -/
def execAppend (data : List Byte) (s : State) : Host.Outcome State Fault Refusal :=
  if s.cfg.capacity < s.available + data.length then .next (raise .failNoSpace s)
  else .next (answer .ok [] none (pushBack data s))

/-- CONSUME (R101). -/
def execConsume (size : Nat) (s : State) : Host.Outcome State Fault Refusal :=
  if s.available < size then .next (raise .failUnderrun s)
  else .next (answer .ok (memRead s.cfg.capacity s.mem s.head size) none (dropFront size s))

/-- PEEK (R102). -/
def execPeek (s : State) : Host.Outcome State Fault Refusal := .next (answer .ok s.validRegion none s)

/-- FLUSH (R103). -/
def execFlush (s : State) : Host.Outcome State Fault Refusal := .next (answer .ok [] none (dropFront s.available s))

end Sys2Proof.Machine
end

