-- ==== Sys2Proof/Machine/Checksum.lean ====
section
/-! DEFINITION. The Checksum Validator: VERIFY (43_checksum_validator.md). -/

namespace Sys2Proof.Machine

/-- VERIFY (R131). -/
def execVerify (frame : List Byte) (s : State) : Host.Outcome State Fault Refusal :=
  if frame.length ≠ FRAME_LEN then .next (raise .badLength s)
  else if checksumGood frame then .next (answer .ok [] none s)
  else .next (raise .checksumMismatch s)

end Sys2Proof.Machine
end

