-- ==== Sys2Proof/Machine/Encoder.lean ====
section
/-! DEFINITION. The Request Encoder: ENC_READ, ENC_CFG and their convenience forms (45_request_encoder.md). -/

namespace Sys2Proof.Machine

/-- The five bytes of a request (R73). -/
def request (reg val : Byte) : List Byte := [HDR0, HDR1, reg, val, REQ_TAIL]

/-- A request is handed to the caller; nothing else changes (R180). -/
def sendRequest (reg val : Byte) (s : State) : State := answer .ok (request reg val) none s

/-- ENC_READ (R170): the mask is copied unchanged. -/
def execEncRead (mask : Byte) (s : State) : Host.Outcome State Fault Refusal := .next (sendRequest s.cfg.regRsw mask s)

/-- ENC_CFG (R176). -/
def execEncCfg (reg val : Byte) (s : State) : Host.Outcome State Fault Refusal := .next (sendRequest reg val s)

/-- READ_TIME (R171). -/
def execReadTime (s : State) : Host.Outcome State Fault Refusal := .next (sendRequest s.cfg.regRsw G_TIME s)

/-- READ_ACC (R172). -/
def execReadAcc (s : State) : Host.Outcome State Fault Refusal := .next (sendRequest s.cfg.regRsw G_ACC s)

/-- READ_GYRO (R173). -/
def execReadGyro (s : State) : Host.Outcome State Fault Refusal := .next (sendRequest s.cfg.regRsw G_GYRO s)

/-- READ_ANGLE (R174). -/
def execReadAngle (s : State) : Host.Outcome State Fault Refusal := .next (sendRequest s.cfg.regRsw G_ANGLE s)

/-- READ_MAG (R175). -/
def execReadMag (s : State) : Host.Outcome State Fault Refusal := .next (sendRequest s.cfg.regRsw G_MAG s)

/-- UNLOCK (R177). -/
def execUnlock (s : State) : Host.Outcome State Fault Refusal := .next (sendRequest s.cfg.regUnlock s.cfg.valUnlock s)

/-- SET_RATE (R178). -/
def execSetRate (r : Byte) (s : State) : Host.Outcome State Fault Refusal := .next (sendRequest s.cfg.regRate r s)

/-- SAVE (R179). -/
def execSave (s : State) : Host.Outcome State Fault Refusal := .next (sendRequest s.cfg.regSave s.cfg.valSave s)

end Sys2Proof.Machine
end

