-- ==== Sys2Proof/Machine/Illegal.lean ====
section
/-! DEFINITION. A command whose op is in no row: ILLEGAL (60_exceptions.md R210). -/

namespace Sys2Proof.Machine

/-- ILLEGAL (R210): ILLEGAL_OP, no state changes, whatever the op. -/
def execIllegal (_op : BitVec 4) (s : State) : Host.Outcome State Fault Refusal := .next (raise .illegalOp s)

end Sys2Proof.Machine
end

