-- ==== Sys2Proof/Machine/Decoder.lean ====
section
/-! DEFINITION. The Register Decoder: DECODE and its arms (44_register_decoder.md). -/

namespace Sys2Proof.Machine

/-- The arm of family `f` on a frame that passed every check: one group is written, the response carries the family
(R140, R141). -/
def decodeArm (f : Family) (frame : List Byte) (s : State) : State :=
  answer .ok [] (some f) { s with record := writeFamily f frame s.record }

/-- The checksum test and the dispatch on byte 1, shared by DECODE and PROCESS (R140, R190 steps 4 and 5). -/
def decodeWindow (frame : List Byte) (s : State) : State :=
  if checksumGood frame then
    match familyOf s.cfg (frameByte frame 1) with
    | some f => decodeArm f frame s
    | none => raise .unknownRegister s
  else raise .checksumMismatch s

/-- DECODE (R140): the checks in their order, then the arm. -/
def execDecode (frame : List Byte) (s : State) : Host.Outcome State Fault Refusal :=
  if frame.length ≠ FRAME_LEN then .next (raise .badLength s)
  else if frameByte frame 0 ≠ START then .next (raise .badStart s)
  else .next (decodeWindow frame s)

/-- A FRAME11 row of family `f`: the arm, after the checksum test that comes "before the row is selected" (R88, R140,
R150). -/
def execArm (f : Family) (p : Payload) (ck : Byte) (s : State) : Host.Outcome State Fault Refusal :=
  if checksumGood (p.frame (familyId s.cfg f) ck) then .next (decodeArm f (p.frame (familyId s.cfg f) ck) s)
  else .next (raise .checksumMismatch s)

/-- DEC_TIME (R143). -/
def execDecTime (p : Payload) (ck : Byte) (s : State) : Host.Outcome State Fault Refusal := execArm .time p ck s

/-- DEC_ACC (R144). -/
def execDecAcc (p : Payload) (ck : Byte) (s : State) : Host.Outcome State Fault Refusal := execArm .acc p ck s

/-- DEC_GYRO (R145). -/
def execDecGyro (p : Payload) (ck : Byte) (s : State) : Host.Outcome State Fault Refusal := execArm .gyro p ck s

/-- DEC_ANGLE (R146). -/
def execDecAngle (p : Payload) (ck : Byte) (s : State) : Host.Outcome State Fault Refusal := execArm .angle p ck s

/-- DEC_MAG (R147). -/
def execDecMag (p : Payload) (ck : Byte) (s : State) : Host.Outcome State Fault Refusal := execArm .mag p ck s

/-- DEC_QUAT (R148). -/
def execDecQuat (p : Payload) (ck : Byte) (s : State) : Host.Outcome State Fault Refusal := execArm .quat p ck s

/-- DEC_UNKNOWN (R149): no mutation of the record, after the checksum test. -/
def execDecUnknown (fid : Byte) (p : Payload) (ck : Byte) (s : State) : Host.Outcome State Fault Refusal :=
  if checksumGood (p.frame fid ck) then .next (raise .unknownRegister s)
  else .next (raise .checksumMismatch s)

end Sys2Proof.Machine
end

