-- ==== Sys2Proof/Machine/Synchronizer.lean ====
section
/-! DEFINITION. The Frame Synchronizer: SYNC (42_frame_synchronizer.md). -/

namespace Sys2Proof.Machine

/-- The loop of R120, at most `n` times: while `mem[head]` is not the start marker, one noise byte is discarded. The
answer says whether a start marker was met. -/
def scan : Nat → State → Bool × State
  | 0, s => (false, s)
  | n + 1, s => if readByte s.mem s.head = START then (true, s) else scan n (dropFront 1 s)

/-- SYNC (R120). The bound is `available` at entry. -/
def execSync (s : State) : Host.Outcome State Fault Refusal :=
  match scan s.available s with
  | (true, t) => .next (answer .ok [] none t)
  | (false, t) => .next (raise .noStart { t with available := 0 })

end Sys2Proof.Machine
end

