-- ==== Sys2Proof/Machine/Pipeline.lean ====
section
/-! DEFINITION. The composite command PROCESS (46_pipeline.md). -/

namespace Sys2Proof.Machine

/-- Steps 2 to 5 of R190, on the state the synchronizer left. -/
def processFrom (s : State) : State :=
  if s.available = 0 then raise .noStart s
  else if s.available < FRAME_LEN then raise .incomplete s
  else decodeWindow (memRead s.cfg.capacity s.mem s.head FRAME_LEN) (dropFront FRAME_LEN s)

/-- PROCESS (R190): one attempt at one frame. -/
def execProcess (s : State) : Host.Outcome State Fault Refusal := .next (processFrom (scan s.available s).2)

end Sys2Proof.Machine
end

