-- ==== Sys2Proof/Machine/Dispatch.lean ====
section
/-! DEFINITION. The meaning of every instruction: one arm per constructor. -/

namespace Sys2Proof.Machine

def exec (i : Instr) (s : State) : Host.Outcome State Fault Refusal :=
  match i with
  | .append data => Sys2Proof.Machine.execAppend data s
  | .consume size => Sys2Proof.Machine.execConsume size s
  | .peek => Sys2Proof.Machine.execPeek s
  | .sync => Sys2Proof.Machine.execSync s
  | .verify frame => Sys2Proof.Machine.execVerify frame s
  | .decode frame => Sys2Proof.Machine.execDecode frame s
  | .process => Sys2Proof.Machine.execProcess s
  | .encRead mask => Sys2Proof.Machine.execEncRead mask s
  | .encCfg reg val => Sys2Proof.Machine.execEncCfg reg val s
  | .flush => Sys2Proof.Machine.execFlush s
  | .illegal op => Sys2Proof.Machine.execIllegal op s
  | .decTime p ck => Sys2Proof.Machine.execDecTime p ck s
  | .decAcc p ck => Sys2Proof.Machine.execDecAcc p ck s
  | .decGyro p ck => Sys2Proof.Machine.execDecGyro p ck s
  | .decAngle p ck => Sys2Proof.Machine.execDecAngle p ck s
  | .decMag p ck => Sys2Proof.Machine.execDecMag p ck s
  | .decQuat p ck => Sys2Proof.Machine.execDecQuat p ck s
  | .decUnknown fid p ck => Sys2Proof.Machine.execDecUnknown fid p ck s
  | .readTime => Sys2Proof.Machine.execReadTime s
  | .readAcc => Sys2Proof.Machine.execReadAcc s
  | .readGyro => Sys2Proof.Machine.execReadGyro s
  | .readAngle => Sys2Proof.Machine.execReadAngle s
  | .readMag => Sys2Proof.Machine.execReadMag s
  | .unlock => Sys2Proof.Machine.execUnlock s
  | .setRate r => Sys2Proof.Machine.execSetRate r s
  | .save => Sys2Proof.Machine.execSave s

end Sys2Proof.Machine
end

