-- ==== Sys2Proof/Machine/Step.lean ====
section
/-! DEFINITION. One step: the block takes the next input of its agents, whole (00_scope.md R7, R12; 20_memory.md R58). -/

namespace Sys2Proof.Machine

/-- One step. With no input in store the block "holds its state and does nothing" (60_exceptions.md R218). -/
def step (s : State) : Host.Outcome State Fault Refusal :=
  match s.port with
  | [] => .next s
  | .reset :: later => .next (assertReset { s with port := later })
  | .publish read :: later => .next (publisherRead read { s with port := later })
  | .command message :: later =>
    match decodeMessage s.cfg message with
    | .ok i => exec i { s with port := later }
    | .reject why => .refused (.malformedMessage why)

/-- `s` with the instruction of a table word as its next input (log 1, log 7). -/
def State.withFetchWord (s : State) (nbits w : Nat) : State := { s with port := tableInput nbits w :: s.port }

end Sys2Proof.Machine
end

