-- ==== Sys2Proof/Laws/Decode.lean ====
section
/-! SUPPORT. Small lemmas of the decoder and the encoder (30_encoding.md). -/

namespace Sys2Proof

/-! ## Numbers and bytes -/

theorem natOfBytes_fuel (fuel n : Nat) (h : n < 256 ^ fuel) : natOfBytes (bytesOfNatFuel fuel n) = n := by
  induction fuel generalizing n with
  | zero => simp at h; subst h; rfl
  | succ fuel ih =>
    rw [bytesOfNatFuel]
    by_cases hn : n = 0
    · simp [hn, natOfBytes]
    · rw [if_neg hn, natOfBytes, ih (n / 256) (by rw [Nat.div_lt_iff_lt_mul (by norm_num)]; rwa [pow_succ] at h)]
      simp only [BitVec.toNat_ofNat]
      omega

/-- The bytes of a number give the number back. -/
theorem natOfBytes_bytesOfNat (n : Nat) : natOfBytes (bytesOfNat n) = n :=
  natOfBytes_fuel _ _ (Nat.lt_log2_self.trans_le (Nat.pow_le_pow_left (by norm_num) _))

/-! ## Family ids -/

/-- A byte selects a family exactly when it is that family's id (R75). -/
theorem familyId_of_familyOf {cfg : Config} {fid : Byte} {f : Family} (h : familyOf cfg fid = some f) :
    familyId cfg f = fid := by
  unfold familyOf at h
  split_ifs at h <;> cases h <;> simp_all [familyId]

theorem familyOf_familyId {cfg : Config} (h : cfg.familyIds.Nodup) (f : Family) :
    familyOf cfg (familyId cfg f) = some f := by
  simp only [Config.familyIds, List.nodup_cons, List.mem_cons, not_or, List.not_mem_nil, not_false_eq_true,
    and_true] at h
  obtain ⟨⟨h1, h2, h3, h4, h5⟩, ⟨h6, h7, h8, h9⟩, ⟨h10, h11, h12⟩, ⟨h13, h14⟩, h15⟩ := h
  cases f <;> simp_all [familyOf, familyId, eq_comm]

/-- A byte selects no family exactly when it is none of the six ids (R75). -/
theorem familyOf_eq_none {cfg : Config} {fid : Byte} : familyOf cfg fid = none ↔ fid ∉ cfg.familyIds := by
  unfold familyOf Config.familyIds
  split_ifs <;> simp_all

theorem familyOf_of_not_contains {cfg : Config} {fid : Byte} (h : (!cfg.familyIds.contains fid) = true) :
    familyOf cfg fid = none := by
  rw [familyOf_eq_none]; simpa using h

/-! ## The first byte of a message -/

theorem opByte_ne_START (op : BitVec 4) : opByte op ≠ START := by revert op; decide

theorem opByte_lt (op : BitVec 4) : (opByte op).toNat < 16 := by revert op; decide

@[simp] theorem setWidth_opByte (op : BitVec 4) : (opByte op).setWidth 4 = op := by revert op; decide

/-- A command's message decodes by its op. -/
theorem decodeMessage_opByte (cfg : Config) (op : BitVec 4) (rest : List Byte) :
    decodeMessage cfg (opByte op :: rest) = decodeCommand op rest := by
  rw [decodeMessage, if_neg (opByte_ne_START op), if_pos (opByte_lt op), setWidth_opByte]

/-- A bare frame decodes by its byte 1. -/
theorem decodeMessage_frame (cfg : Config) (p : Payload) (fid ck : Byte) :
    decodeMessage cfg (p.frame fid ck) = .ok (frameRow cfg fid p ck) := by
  simp [Payload.frame, Payload.bytes, decodeMessage, decodeFrame]

/-- An op of the ILLEGAL row decodes to it, whatever follows (R84, R213). -/
theorem decodeCommand_illegal {op : BitVec 4} (h : illegalOp op = true) (rest : List Byte) :
    decodeCommand op rest = .ok (.illegal op) := by
  have key : ∀ op : BitVec 4, illegalOp op = true → op ≠ OP_APPEND ∧ op ≠ OP_CONSUME ∧ op ≠ OP_PEEK ∧ op ≠ OP_SYNC ∧
      op ≠ OP_VERIFY ∧ op ≠ OP_DECODE ∧ op ≠ OP_PROCESS ∧ op ≠ OP_ENC_READ ∧ op ≠ OP_ENC_CFG ∧ op ≠ OP_FLUSH := by
    decide
  obtain ⟨h1, h2, h3, h4, h5, h6, h7, h8, h9, h10⟩ := key op h
  simp [decodeCommand, h1, h2, h3, h4, h5, h6, h7, h8, h9, h10]

end Sys2Proof
end

