-- ==== Sys2Proof/Laws/PerInstr.lean ====
section
/-! SUPPORT. Family RoundTrip, per instruction: the message of a well-formed instruction decodes to the instruction, or
to the command a pseudo-instruction expands to (30_encoding.md R70, R72, R87). -/

namespace Sys2Proof.Laws.RoundTrip

/-- The message of `i` decodes to what `i` expands to. -/
def Statement (i : Instr) : Prop :=
  ∀ cfg : Config, cfg.wf → i.wf cfg = true → decodeMessage cfg (encode cfg i) = .ok (i.expand cfg)

theorem append (data : List Byte) : Statement (.append data) := fun cfg _ _ => decodeMessage_opByte cfg OP_APPEND data

theorem consume (size : Nat) : Statement (.consume size) := by
  intro cfg _ _
  rw [encode, decodeMessage_opByte]
  simp [decodeCommand, Instr.expand, natOfBytes_bytesOfNat, OP_APPEND, OP_CONSUME]

theorem peek : Statement .peek := fun cfg _ _ => decodeMessage_opByte cfg OP_PEEK []

theorem sync : Statement .sync := fun cfg _ _ => decodeMessage_opByte cfg OP_SYNC []

theorem verify (frame : List Byte) : Statement (.verify frame) := fun cfg _ _ => decodeMessage_opByte cfg OP_VERIFY frame

theorem decode (frame : List Byte) : Statement (.decode frame) := fun cfg _ _ => decodeMessage_opByte cfg OP_DECODE frame

theorem process : Statement .process := fun cfg _ _ => decodeMessage_opByte cfg OP_PROCESS []

theorem encRead (mask : Byte) : Statement (.encRead mask) := fun cfg _ _ => decodeMessage_opByte cfg OP_ENC_READ [mask]

theorem encCfg (reg val : Byte) : Statement (.encCfg reg val) :=
  fun cfg _ _ => decodeMessage_opByte cfg OP_ENC_CFG [reg, val]

theorem flush : Statement .flush := fun cfg _ _ => decodeMessage_opByte cfg OP_FLUSH []

theorem illegal (op : BitVec 4) : Statement (.illegal op) := fun cfg _ h =>
  (decodeMessage_opByte cfg op []).trans (decodeCommand_illegal h [])

/-- A frame with the id of family `f` decodes to that family's row. -/
theorem of_family {cfg : Config} (h : cfg.wf) (f : Family) (p : Payload) (ck : Byte) :
    decodeMessage cfg (p.frame (familyId cfg f) ck) = .ok (rowOf (familyId cfg f) p ck (some f)) := by
  rw [decodeMessage_frame, frameRow, familyOf_familyId h.2 f]

theorem decTime (p : Payload) (ck : Byte) : Statement (.decTime p ck) := fun _ h _ => of_family h .time p ck

theorem decAcc (p : Payload) (ck : Byte) : Statement (.decAcc p ck) := fun _ h _ => of_family h .acc p ck

theorem decGyro (p : Payload) (ck : Byte) : Statement (.decGyro p ck) := fun _ h _ => of_family h .gyro p ck

theorem decAngle (p : Payload) (ck : Byte) : Statement (.decAngle p ck) := fun _ h _ => of_family h .angle p ck

theorem decMag (p : Payload) (ck : Byte) : Statement (.decMag p ck) := fun _ h _ => of_family h .mag p ck

theorem decQuat (p : Payload) (ck : Byte) : Statement (.decQuat p ck) := fun _ h _ => of_family h .quat p ck

theorem decUnknown (fid : Byte) (p : Payload) (ck : Byte) : Statement (.decUnknown fid p ck) := by
  intro cfg _ h
  rw [encode, decodeMessage_frame, frameRow, familyOf_of_not_contains h]
  rfl

theorem readTime : Statement .readTime := fun cfg _ _ => decodeMessage_opByte cfg OP_ENC_READ [G_TIME]

theorem readAcc : Statement .readAcc := fun cfg _ _ => decodeMessage_opByte cfg OP_ENC_READ [G_ACC]

theorem readGyro : Statement .readGyro := fun cfg _ _ => decodeMessage_opByte cfg OP_ENC_READ [G_GYRO]

theorem readAngle : Statement .readAngle := fun cfg _ _ => decodeMessage_opByte cfg OP_ENC_READ [G_ANGLE]

theorem readMag : Statement .readMag := fun cfg _ _ => decodeMessage_opByte cfg OP_ENC_READ [G_MAG]

theorem unlock : Statement .unlock := fun cfg _ _ =>
  decodeMessage_opByte cfg OP_ENC_CFG [cfg.regUnlock, cfg.valUnlock]

theorem setRate (r : Byte) : Statement (.setRate r) := fun cfg _ _ => decodeMessage_opByte cfg OP_ENC_CFG [cfg.regRate, r]

theorem save : Statement .save := fun cfg _ _ => decodeMessage_opByte cfg OP_ENC_CFG [cfg.regSave, cfg.valSave]

end Sys2Proof.Laws.RoundTrip
end

