-- ==== Sys2Proof/Safety.lean ====
section
/-! DEFINITION. What counts as a safe run, and the words the statements use: the invariant of the state (10_state.md R22,
R23), the block as a queue of bytes beside a record (the whole of files 41 to 46 without storage indices), the ledger of
bytes (20_memory.md R65), and streams cut in pieces (46_pipeline.md R193). -/

namespace Sys2Proof.Machine

/-! ## The invariant -/

/-- R22 and R23, with the parameters well-formed (R5) and the storage in its canonical form inside the address space
(R37). -/
abbrev State.Inv (s : State) : Prop :=
  s.cfg.wf ∧ s.mem.wf = true ∧ s.mem.within s.cfg.capacity = true ∧
    s.head < s.cfg.capacity ∧ s.tail < s.cfg.capacity ∧ s.available ≤ s.cfg.capacity ∧
    s.tail = (s.head + s.available) % s.cfg.capacity

/-- A safe state: the invariant holds, and the next step neither faults nor refuses. -/
def State.Safe (s : State) : Prop := s.Inv ∧ ∃ t, step s = .next t

/-- A safe run of `n` steps: every state on it is safe. -/
def SafeRun : Nat → State → Prop
  | 0, s => s.Inv
  | n + 1, s => s.Inv ∧ ∃ t, step s = .next t ∧ SafeRun n t

/-! ## Running commands -/

/-- The state after a command, the state itself if it stops (no command stops: R215). -/
def runCommand (i : Instr) (s : State) : State :=
  match exec i s with
  | .next t => t
  | .fault _ => s
  | .refused _ => s

/-- The state after a sequence of commands, each whole before the next (R58). -/
def runCommands : List Instr → State → State
  | [], s => s
  | i :: is, s => runCommands is (runCommand i s)

/-- The response of the last input, if it was a command. -/
def State.response (s : State) : Option Response :=
  match s.out with
  | some (.response r) => some r
  | some (.validBits _) => none
  | some (.fields _) => none
  | some (.readerFault _) => none
  | none => none

/-- The response of a status with its outputs, as it stands in `out` (R10). -/
def reply (status : Status) (bytes : List Byte) (family : Option Family) : Option Output :=
  some (.response ⟨status, bytes, family⟩)

/-- The status of the last input, if it was a command (R200). -/
def State.status (s : State) : Option Status := s.response.map Response.status

/-- The last byte that makes the frame of id `fid` and payload `p` verify, added up byte by byte (R72, R134). -/
def goodChecksum (fid : Byte) (p : Payload) : Byte :=
  0x55 + fid + p.b2 + p.b3 + p.b4 + p.b5 + p.b6 + p.b7 + p.b8 + p.b9

/-- An input the block takes without stopping in any state of parameters `cfg`: reset, any read of the publisher, a
message that is an instruction. -/
def Input.acceptable (cfg : Config) : Input → Bool
  | .reset => true
  | .publish _ => true
  | .command message => (decodeMessage cfg message).toOption.isSome

/-- Two states that differ at most in bytes of `mem` outside the valid region (R38). -/
def SameButHidden (s t : State) : Prop :=
  s.cfg = t.cfg ∧ s.head = t.head ∧ s.tail = t.tail ∧ s.available = t.available ∧ s.record = t.record ∧
    s.port = t.port ∧ s.out = t.out ∧ s.validRegion = t.validRegion

/-! ## The block as a queue -/

/-- A queue of bytes, the oldest first, beside a record. -/
structure Fifo where
  queue  : List Byte
  record : Record
  deriving DecidableEq, Repr

/-- The state seen as a queue. -/
def State.fifo (s : State) : Fifo := ⟨s.validRegion, s.record⟩

/-- The queue without its noise prefix: what stands from the first start marker on (R121). -/
def fromStart (q : List Byte) : List Byte := q.dropWhile (· != START)

/-- How many bytes stand ahead of the first start marker, all of them if there is none (R121). -/
def noiseLength (q : List Byte) : Nat := q.length - (fromStart q).length

/-- What the checks on a frame's checksum and id, and the arm, do to the record (R140, R141, R149, R150). -/
def frameVerdict (cfg : Config) (frame : List Byte) (r : Record) : Record × Response :=
  if csum frame ≠ frameByte frame 10 then (r, ⟨.checksumMismatch, [], none⟩)
  else match familyOf cfg (frameByte frame 1) with
    | none => (r, ⟨.unknownRegister, [], none⟩)
    | some f => (writeFamily f frame r, ⟨.ok, [], some f⟩)

/-- DECODE on the record (R140). -/
def decodeVerdict (cfg : Config) (frame : List Byte) (r : Record) : Record × Response :=
  if frame.length ≠ 11 then (r, ⟨.badLength, [], none⟩)
  else if frameByte frame 0 ≠ START then (r, ⟨.badStart, [], none⟩)
  else frameVerdict cfg frame r

/-- A verdict on the record beside an untouched queue. -/
def Fifo.judge (f : Fifo) (v : Record × Response) : Fifo × Response := (⟨f.queue, v.1⟩, v.2)

/-- PROCESS on the queue (R190). -/
def Fifo.process (cfg : Config) (f : Fifo) : Fifo × Response :=
  let q := fromStart f.queue
  if q = [] then (⟨[], f.record⟩, ⟨.noStart, [], none⟩)
  else if q.length < 11 then (⟨q, f.record⟩, ⟨.incomplete, [], none⟩)
  else (⟨q.drop 11, (frameVerdict cfg (q.take 11) f.record).1⟩, (frameVerdict cfg (q.take 11) f.record).2)

/-- A request handed out (R73, R180). -/
def requestAnswer (reg val : Byte) : Response := ⟨.ok, [0xFF, 0xAA, reg, val, 0x00], none⟩

/-- Every command on the queue and the record alone: no `mem`, no `head`, no `tail`. -/
def Fifo.exec (cfg : Config) (i : Instr) (f : Fifo) : Fifo × Response :=
  match i with
  | .append data =>
    if cfg.capacity < f.queue.length + data.length then (f, ⟨.failNoSpace, [], none⟩)
    else (⟨f.queue ++ data, f.record⟩, ⟨.ok, [], none⟩)
  | .consume size =>
    if f.queue.length < size then (f, ⟨.failUnderrun, [], none⟩)
    else (⟨f.queue.drop size, f.record⟩, ⟨.ok, f.queue.take size, none⟩)
  | .peek => (f, ⟨.ok, f.queue, none⟩)
  | .sync => (⟨fromStart f.queue, f.record⟩, ⟨if fromStart f.queue = [] then .noStart else .ok, [], none⟩)
  | .verify frame =>
    (f, ⟨if frame.length ≠ 11 then .badLength else if csum frame = frameByte frame 10 then .ok else .checksumMismatch,
      [], none⟩)
  | .decode frame => f.judge (decodeVerdict cfg frame f.record)
  | .process => f.process cfg
  | .encRead mask => (f, requestAnswer cfg.regRsw mask)
  | .encCfg reg val => (f, requestAnswer reg val)
  | .flush => (⟨[], f.record⟩, ⟨.ok, [], none⟩)
  | .illegal _ => (f, ⟨.illegalOp, [], none⟩)
  | .decTime p ck => f.judge (decodeVerdict cfg (p.frame cfg.fidTime ck) f.record)
  | .decAcc p ck => f.judge (decodeVerdict cfg (p.frame FID_ACC ck) f.record)
  | .decGyro p ck => f.judge (decodeVerdict cfg (p.frame cfg.fidGyro ck) f.record)
  | .decAngle p ck => f.judge (decodeVerdict cfg (p.frame cfg.fidAngle ck) f.record)
  | .decMag p ck => f.judge (decodeVerdict cfg (p.frame cfg.fidMag ck) f.record)
  | .decQuat p ck => f.judge (decodeVerdict cfg (p.frame cfg.fidQuat ck) f.record)
  | .decUnknown fid p ck => f.judge (decodeVerdict cfg (p.frame fid ck) f.record)
  | .readTime => (f, requestAnswer cfg.regRsw 0x01)
  | .readAcc => (f, requestAnswer cfg.regRsw 0x02)
  | .readGyro => (f, requestAnswer cfg.regRsw 0x04)
  | .readAngle => (f, requestAnswer cfg.regRsw 0x08)
  | .readMag => (f, requestAnswer cfg.regRsw 0x10)
  | .unlock => (f, requestAnswer cfg.regUnlock cfg.valUnlock)
  | .setRate r => (f, requestAnswer cfg.regRate r)
  | .save => (f, requestAnswer cfg.regSave cfg.valSave)

/-! ## The ledger of bytes (R65) -/

/-- The bytes an instruction adds: `size` of an APPEND that succeeds. -/
def bytesAdded : Instr → State → Nat
  | .append data, s => if s.cfg.capacity < s.available + data.length then 0 else data.length
  | _, _ => 0

/-- The bytes an instruction removes: `size` of a CONSUME that succeeds, and what SYNC, PROCESS and FLUSH discard. -/
def bytesRemoved : Instr → State → Nat
  | .consume size, s => if s.available < size then 0 else size
  | .sync, s => noiseLength s.validRegion
  | .process, s => noiseLength s.validRegion + if (fromStart s.validRegion).length < 11 then 0 else 11
  | .flush, s => s.available
  | _, _ => 0

/-- The total over a sequence of commands of what each counts in the state it meets. -/
def ledger (count : Instr → State → Nat) : List Instr → State → Nat
  | [], _ => 0
  | i :: is, s => count i s + ledger count is (runCommand i s)

/-! ## Streams cut in pieces (R193) -/

/-- What the driver does with a stream: a chunk is appended, or PROCESS is issued. -/
inductive Feed where
  | chunk (data : List Byte)
  | process
  deriving DecidableEq, Repr

/-- The command of a feed. -/
def Feed.command : Feed → Instr
  | .chunk data => .append data
  | .process => .process

/-- The byte stream that the chunks of a feed make up. -/
def streamOf : List Feed → List Byte
  | [] => []
  | .chunk data :: fs => data ++ streamOf fs
  | .process :: fs => streamOf fs

/-- A response that PROCESS gives for a frame: neither NO_START nor INCOMPLETE. -/
def Response.settled (r : Response) : Bool := r.status != .noStart && r.status != .incomplete

/-- The response in a state, if it is that of a frame. -/
def settledResponse (s : State) : List Response := s.response.toList.filter Response.settled

/-- No APPEND of the feed fails. -/
def fits : List Feed → State → Bool
  | [], _ => true
  | .chunk data :: fs, s =>
    decide (s.available + data.length ≤ s.cfg.capacity) && fits fs (runCommand (.append data) s)
  | .process :: fs, s => fits fs (runCommand .process s)

/-- A feed run from a state: the responses of its PROCESS commands that are those of frames, and the state after it. -/
def runFeed : List Feed → State → List Response × State
  | [], s => ([], s)
  | .chunk data :: fs, s => runFeed fs (runCommand (.append data) s)
  | .process :: fs, s =>
    let t := runCommand .process s
    (settledResponse t ++ (runFeed fs t).1, (runFeed fs t).2)

/-- PROCESS repeated until it returns NO_START or INCOMPLETE, at most `n` times: the responses before that, the state
then, and whether it came to that. -/
def drain : Nat → State → List Response × State × Bool
  | 0, s => ([], s, false)
  | n + 1, s =>
    let t := runCommand .process s
    if settledResponse t = [] then ([], t, true)
    else (settledResponse t ++ (drain n t).1, (drain n t).2)

/-- A feed, then PROCESS until NO_START or INCOMPLETE: all responses of frames, and the state at the end. -/
def finish (fs : List Feed) (s : State) : List Response × State :=
  let (rs, t) := runFeed fs s
  let (rs', u, _) := drain (t.available / 11 + 1) t
  (rs ++ rs', u)

end Sys2Proof.Machine
end

