-- ==== Sys2Proof/Certificates/Slice0/Obligations.lean ====
section
/-! DEFINITION. The statements for the provers. `out` is where the model holds the response a rule speaks of (log 2), and
`port` where it holds the inputs to come (log 1); both are the model's own. `{ s with … }` says the frame: every field not
named is as it was. A docstring names the decision (D, of 92_eei_decisions.md) that a clause rests on; the sentences of R6,
R23, R38, R51, R63, R65, R105, R132, R134, R192, R193 and R215 that are stated here are the spec's own inferences
(`[derived: …]` there). Statements that rest on one of these, or on the log, have basis 'derived'. -/

open Sys2Proof Sys2Proof.Machine

/-! ## Reset and the invariant -/

/-- 10_state.md R39 and 70_reset_and_hazards.md R230: an empty buffer and six valid bits of 0, whatever the parameters,
also when reset is asserted later, any number of times, with the parameters as they were (R231). Nothing is said of the
values that R39 leaves unspecified. -/
def Obligations.ResetEmptiesBufferAndClearsValidBits : Prop :=
  State.reset = State.resetWith Config.default ∧
  (∀ cfg : Config, (State.resetWith cfg).cfg = cfg ∧ (State.resetWith cfg).head = 0 ∧ (State.resetWith cfg).tail = 0 ∧
    (State.resetWith cfg).available = 0 ∧ ∀ f, (State.resetWith cfg).record.valid.get f = false) ∧
  (∀ (s : State) (later : List Input), s.port = .reset :: later →
    ∃ t, step s = .next t ∧ t.head = 0 ∧ t.tail = 0 ∧ t.available = 0 ∧ (∀ f, t.record.valid.get f = false) ∧
      t.cfg = s.cfg ∧ t.port = later)

/-- R23 "holds at reset", with R22: of every block built with parameters as R5 asks. -/
def Obligations.ResetMeetsInvariant : Prop :=
  State.reset.Inv ∧ ∀ cfg : Config, cfg.wf → (State.resetWith cfg).Inv

/-- R22 and R23: kept by every step, from every state that meets them. The clause on the storage's canonical form is the
model's own (log 8). -/
def Obligations.StepKeepsInvariant : Prop :=
  ∀ s t : State, s.Inv → step s = .next t → t.Inv

/-- R5: the parameters are fixed when the block is built; no step changes them. -/
def Obligations.StepNeverChangesParameters : Prop :=
  ∀ s t : State, step s = .next t → t.cfg = s.cfg

/-! ## Steps, messages and stops -/

/-- A step runs the instruction that the next message decodes to, after taking the message from the port (log 1); with
no input "it holds its state and does nothing" (60_exceptions.md R218). -/
def Obligations.StepRunsDecodedInstruction : Prop :=
  (∀ s : State, s.port = [] → step s = .next s) ∧
  ∀ (s : State) (message : List Byte) (later : List Input) (i : Instr), s.port = .command message :: later →
    decodeMessage s.cfg message = .ok i → step s = exec i { s with port := later }

/-- The message of a well-formed instruction, put to the port, runs the instruction, a pseudo-instruction as the command
it expands to, which does the same (R87; log 4, log 6). -/
def Obligations.EncodedInstructionRuns : Prop :=
  ∀ (s : State) (i : Instr) (later : List Input), s.cfg.wf → i.wf s.cfg = true →
    s.port = .command (encode s.cfg i) :: later → step s = exec i { s with port := later }

/-- R215, R200: every command answers, with exactly one response, and none is fatal. -/
def Obligations.EveryCommandAnswers : Prop :=
  ∀ (i : Instr) (s : State), ∃ t r, exec i s = .next t ∧ t.out = some (.response r)

/-- Where a step can stop: a refusal, exactly at a message that decodes to nothing (log 12); everywhere else it answers a
next state, a publisher's read of what no frame has written among it (R12, R215, R221). -/
def Obligations.StepStopsOnlyAtMalformedMessage : Prop :=
  ∀ s : State,
    (∀ r, step s = .refused r ↔
      ∃ message later why, s.port = .command message :: later ∧ decodeMessage s.cfg message = .reject why ∧
        r = .malformedMessage why) ∧
    ((∀ r, step s ≠ .refused r) → ∃ t, step s = .next t)

/-- R215: "No sequence of commands can put the block into a state from which it does not continue": with inputs that are
instructions, resets or reads of the publisher, a run of any length is safe. -/
def Obligations.AcceptableInputsNeverStopTheBlock : Prop :=
  ∀ (s : State) (n : Nat), s.Inv → (∀ x ∈ s.port, x.acceptable s.cfg = true) → SafeRun n s

/-! ## Encoding -/

/-- Decoding the message of a well-formed instruction gives it back, a pseudo-instruction as its expansion (R70, R72,
R87), with every operand at every value; for every configuration with six distinct ids. The layout is log 4's. -/
def Obligations.DecodeOfEncodeIsTheInstruction : Prop :=
  ∀ (cfg : Config) (i : Instr), cfg.wf → i.wf cfg = true → decodeMessage cfg (encode cfg i) = .ok (i.expand cfg)

/-- What the decoder gives is well-formed. -/
def Obligations.DecodedInstructionIsWellFormed : Prop :=
  ∀ (cfg : Config) (message : List Byte) (i : Instr), decodeMessage cfg message = .ok i → i.wf cfg = true

/-- A message has one meaning: but for a size with leading zeros (CONSUME) and the operands of an illegal op, a message
that decodes is the message of what it decodes to. -/
def Obligations.EncodeOfDecodeIsTheMessage : Prop :=
  ∀ (cfg : Config) (message : List Byte) (i : Instr), decodeMessage cfg message = .ok i →
    (∀ n, i ≠ .consume n) → (∀ op, i ≠ .illegal op) → encode cfg i = message

/-- Ten messages written out byte by byte. The ops, the order of a frame's bytes and the id 0x51 are the spec's (R70, R72,
R75); the layout of a message (op in the first byte, then the operands, a size least significant byte first) is the
model's choice (log 4), a bare frame as a message is too (log 5), and that 0x5A is no family's id rests on the presumed
default ids (log 3). -/
def Obligations.SampleMessagesDecode : Prop :=
  decodeMessage Config.default [0x01, 0x0A, 0x0B, 0x0C] = .ok (.append [0x0A, 0x0B, 0x0C]) ∧
  decodeMessage Config.default [0x02, 0x09] = .ok (.consume 9) ∧
  decodeMessage Config.default [0x02, 0x00, 0x01] = .ok (.consume 256) ∧
  decodeMessage Config.default [0x04] = .ok .sync ∧
  decodeMessage Config.default [0x07] = .ok .process ∧
  decodeMessage Config.default [0x08, 0x1F] = .ok (.encRead 0x1F) ∧
  decodeMessage Config.default [0x09, 0x03, 0x06] = .ok (.encCfg 0x03 0x06) ∧
  decodeMessage Config.default [0x0F] = .ok (.illegal 0xF) ∧
  decodeMessage Config.default [0x55, 0x51, 0xFF, 0xFF, 0x00, 0x80, 0x00, 0x08, 0xC4, 0x09, 0xF9] =
    .ok (.decAcc ⟨0xFF, 0xFF, 0x00, 0x80, 0x00, 0x08, 0xC4, 0x09⟩ 0xF9) ∧
  decodeMessage Config.default [0x55, 0x5A, 1, 2, 3, 4, 5, 6, 7, 8, 0xD3] =
    .ok (.decUnknown 0x5A ⟨1, 2, 3, 4, 5, 6, 7, 8⟩ 0xD3)

/-- R84, R210, R213: every op of no row, with whatever operands after it, is answered ILLEGAL_OP, and no state changes.
That its message stands at the port is log 1's, its first byte log 4's. The first clause is for every op: that the term
`illegal op` answers so for the op of a command too, which no message decodes to, is the model's choice (log 16). -/
def Obligations.IllegalOpChangesNothing : Prop :=
  (∀ (op : BitVec 4) (s : State), exec (.illegal op) s = .next { s with out := reply .illegalOp [] none }) ∧
  ∀ (s : State) (op : BitVec 4) (operands : List Byte) (later : List Input), op.toNat = 0 ∨ 11 ≤ op.toNat →
    s.port = .command (opByte op :: operands) :: later →
    step s = .next { s with port := later, out := reply .illegalOp [] none }

/-- R87: each pseudo-instruction does what the command it expands to does. -/
def Obligations.PseudoInstructionIsItsExpansion : Prop :=
  ∀ (i : Instr) (s : State), exec i s = exec (i.expand s.cfg) s

/-- R88: the FRAME11 rows' `match` and `mask` of opcode_table.json, byte 0 leftmost, select the messages of their
rows. -/
def Obligations.FrameRowsMatchTheTable : Prop :=
  ∀ (p : Payload) (fid ck : Byte),
    let under (mask message : List Byte) := List.zipWith (· &&& ·) message mask
    let mask : List Byte := [0xFF, 0xFF, 0, 0, 0, 0, 0, 0, 0, 0, 0]
    under mask (encode Config.default (.decTime p ck)) = [0x55, 0x50, 0, 0, 0, 0, 0, 0, 0, 0, 0] ∧
    under mask (encode Config.default (.decAcc p ck)) = [0x55, 0x51, 0, 0, 0, 0, 0, 0, 0, 0, 0] ∧
    under mask (encode Config.default (.decGyro p ck)) = [0x55, 0x52, 0, 0, 0, 0, 0, 0, 0, 0, 0] ∧
    under mask (encode Config.default (.decAngle p ck)) = [0x55, 0x53, 0, 0, 0, 0, 0, 0, 0, 0, 0] ∧
    under mask (encode Config.default (.decMag p ck)) = [0x55, 0x54, 0, 0, 0, 0, 0, 0, 0, 0, 0] ∧
    under mask (encode Config.default (.decQuat p ck)) = [0x55, 0x59, 0, 0, 0, 0, 0, 0, 0, 0, 0] ∧
    under [0xFF, 0, 0, 0, 0, 0, 0, 0, 0, 0, 0] (encode Config.default (.decUnknown fid p ck)) =
      [0x55, 0, 0, 0, 0, 0, 0, 0, 0, 0, 0]

/-- R200: each of the ten statuses has the code of its row, 0x0 to 0x9, and R70: the ten commands have the ops 0x1 to
0xA, in the order of the tables. -/
def Obligations.StatusCodesAreDistinct : Prop :=
  (∀ a b : Status, a.code = b.code → a = b) ∧ (∀ a : Status, a.code.toNat ≤ 9) ∧
  ([Status.ok, .failNoSpace, .failUnderrun, .noStart, .incomplete, .checksumMismatch, .unknownRegister, .badLength,
    .badStart, .illegalOp].map fun a => a.code.toNat) = [0, 1, 2, 3, 4, 5, 6, 7, 8, 9] ∧
  ([OP_APPEND, OP_CONSUME, OP_PEEK, OP_SYNC, OP_VERIFY, OP_DECODE, OP_PROCESS, OP_ENC_READ, OP_ENC_CFG, OP_FLUSH].map
    BitVec.toNat) = [1, 2, 3, 4, 5, 6, 7, 8, 9, 10]

/-! ## The buffer -/

/-- R100, whole: APPEND stores its bytes at `tail`, wrapping, and nothing else, or fails and stores none. -/
def Obligations.AppendStoresAtTailOrFails : Prop :=
  ∀ (s : State) (data : List Byte), s.Inv →
    (s.available + data.length ≤ s.cfg.capacity → ∃ t, exec (.append data) s = .next t ∧
      (∀ k b, data[k]? = some b → readByte t.mem ((s.tail + k) % s.cfg.capacity) = b) ∧
      (∀ a, (∀ k, k < data.length → a ≠ (s.tail + k) % s.cfg.capacity) → readByte t.mem a = readByte s.mem a) ∧
      t.tail = (s.tail + data.length) % s.cfg.capacity ∧ t.available = s.available + data.length ∧
      t.head = s.head ∧ t.record = s.record ∧ t.cfg = s.cfg ∧ t.port = s.port ∧ t.out = reply .ok [] none) ∧
    (s.cfg.capacity < s.available + data.length →
      exec (.append data) s = .next { s with out := reply .failNoSpace [] none })

/-- R101: CONSUME returns the oldest bytes and removes them, or fails, returns none and removes none. That the failing
case returns none is the spec's own decision (D30). -/
def Obligations.ConsumeReturnsOldestOrFails : Prop :=
  ∀ (s : State) (size : Nat),
    (size ≤ s.available → ∃ bytes : List Byte, bytes.length = size ∧
      (∀ k, k < size → bytes[k]? = some (readByte s.mem ((s.head + k) % s.cfg.capacity))) ∧
      exec (.consume size) s = .next
        { s with
          head := (s.head + size) % s.cfg.capacity
          available := s.available - size
          out := reply .ok bytes none }) ∧
    (s.available < size → exec (.consume size) s = .next { s with out := reply .failUnderrun [] none })

/-- R102: PEEK shows the valid bytes, oldest first, and changes nothing. That the output is the bytes and not their text
is the spec's own decision (D29). -/
def Obligations.PeekShowsValidBytes : Prop :=
  ∀ s : State, ∃ bytes : List Byte, bytes.length = s.available ∧
    (∀ k, k < s.available → bytes[k]? = some (readByte s.mem ((s.head + k) % s.cfg.capacity))) ∧
    exec .peek s = .next { s with out := reply .ok bytes none }

/-- R103: FLUSH empties the buffer; `head` comes to `tail`, by R23. The command is the spec's own (D24). -/
def Obligations.FlushEmptiesTheBuffer : Prop :=
  ∀ s : State, s.Inv → exec .flush s = .next { s with head := s.tail, available := 0, out := reply .ok [] none }

/-- R105, which the spec derives from R100, R101 and R23: first in, first out. -/
def Obligations.BytesLeaveInTheOrderTheyEntered : Prop :=
  ∀ (s t₁ t₂ t₃ : State) (a b : List Byte), s.Inv →
    exec (.append a) s = .next t₁ → t₁.status = some .ok →
    exec (.append b) t₁ = .next t₂ → t₂.status = some .ok →
    exec (.consume t₂.available) t₂ = .next t₃ →
    t₃.out = reply .ok (s.validRegion ++ a ++ b) none ∧ t₃.available = 0

/-- R20 and R21, the "written by" columns: `mem` and `tail` only by APPEND; `head` only by CONSUME, SYNC, PROCESS and
FLUSH; `available` only by these five. -/
def Obligations.BufferStateHasTheWritersOfItsTable : Prop :=
  ∀ (i : Instr) (s t : State), exec i s = .next t →
    ((∀ data, i ≠ .append data) → t.mem = s.mem ∧ t.tail = s.tail) ∧
    ((∀ n, i ≠ .consume n) → i ≠ .sync → i ≠ .process → i ≠ .flush → t.head = s.head ∧
      ((∀ data, i ≠ .append data) → t.available = s.available))

/-! ## The synchronizer -/

/-- R120 in the closed form that the spec derives from its loop (D32 for the end state when nothing is found): to the
first start marker, or past all that is valid. -/
def Obligations.SyncAdvancesToFirstStart : Prop :=
  ∀ s : State, s.Inv →
    (∀ j, j < s.available → (∀ k, k < j → s.validRegion[k]? ≠ some 0x55) → s.validRegion[j]? = some 0x55 →
      exec .sync s = .next
        { s with
          head := (s.head + j) % s.cfg.capacity
          available := s.available - j
          out := reply .ok [] none }) ∧
    ((∀ b ∈ s.validRegion, b ≠ 0x55) →
      exec .sync s = .next
        { s with
          head := (s.head + s.available) % s.cfg.capacity
          available := 0
          out := reply .noStart [] none })

/-- R121: SYNC "discards exactly the noise prefix and leaves `0x55` at `head`". -/
def Obligations.SyncDiscardsExactlyTheNoise : Prop :=
  ∀ s : State, s.Inv → 0x55 ∈ s.validRegion →
    ∃ t noise, exec .sync s = .next t ∧ t.status = some .ok ∧ readByte t.mem t.head = 0x55 ∧
      s.validRegion = noise ++ t.validRegion ∧ ∀ b ∈ noise, b ≠ 0x55

/-! ## The checksum -/

/-- R131: VERIFY compares the last byte with the sum of the first ten modulo 256, after the length test, and writes
nothing. BAD_LENGTH is the spec's own decision (D20). -/
def Obligations.VerifyComparesTheSum : Prop :=
  ∀ (s : State) (frame : List Byte),
    (frame.length ≠ 11 → exec (.verify frame) s = .next { s with out := reply .badLength [] none }) ∧
    (∀ (ten : List Byte) (last : Byte), ten.length = 10 → frame = ten ++ [last] →
      ((ten.map BitVec.toNat).sum % 256 = last.toNat →
        exec (.verify frame) s = .next { s with out := reply .ok [] none }) ∧
      ((ten.map BitVec.toNat).sum % 256 ≠ last.toNat →
        exec (.verify frame) s = .next { s with out := reply .checksumMismatch [] none }))

/-- R132: any single changed byte is detected. -/
def Obligations.SingleChangedByteIsDetected : Prop :=
  ∀ (s t : State) (frame : List Byte) (j : Nat) (b : Byte), exec (.verify frame) s = .next t → t.status = some .ok →
    j < 11 → frame[j]? ≠ some b → exec (.verify (frame.set j b)) s = .next { s with out := reply .checksumMismatch [] none }

/-- R134: for ten bytes exactly one eleventh makes the frame verify, their sum modulo 256. -/
def Obligations.ExactlyOneChecksumVerifies : Prop :=
  ∀ ten : List Byte, ten.length = 10 → ∃ good : Byte, good.toNat = (ten.map BitVec.toNat).sum % 256 ∧
    ∀ (s t : State) (last : Byte), exec (.verify (ten ++ [last])) s = .next t → (t.status = some .ok ↔ last = good)

/-- R63: adding byte by byte into an 8-bit accumulator that drops the carry gives the same sum. -/
def Obligations.EightBitAccumulatorGivesTheSum : Prop :=
  ∀ b : List Byte, sum8 b = b.foldl (· + ·) 0

/-- R50 and R64: a pair is little-endian, unsigned or two's complement. -/
def Obligations.PairsAreLittleEndianTwosComplement : Prop :=
  ∀ lo hi : Byte,
    u16 (u16le lo hi) = lo.toNat + 256 * hi.toNat ∧
    (lo.toNat + 256 * hi.toNat < 32768 → s16 (u16le lo hi) = lo.toNat + 256 * hi.toNat) ∧
    (32768 ≤ lo.toNat + 256 * hi.toNat → s16 (u16le lo hi) = (lo.toNat + 256 * hi.toNat : Int) - 65536)

/-! ## The decoder -/

/-- R143: a good TIME frame, as DECODE's operand or as the row's own message. The minute and the raw bytes are the spec's
own decisions (D14, D15). -/
def Obligations.TimeFrameWritesTimeGroup : Prop :=
  ∀ (s : State) (p : Payload), s.cfg.wf →
    let ck := goodChecksum s.cfg.fidTime p
    let t : State :=
      { s with
        record :=
          { s.record with
            time := ⟨p.b2, p.b3, p.b4, p.b5, p.b6, p.b7, u16le p.b8 p.b9⟩
            valid := { s.record.valid with time := true } }
        out := reply .ok [] (some .time) }
    (∀ i ∈ [Instr.decode (p.frame s.cfg.fidTime ck), Instr.decTime p ck], exec i s = .next t) ∧
      [RecordField.year, .month, .day, .hour, .minute, .second, .millisecond].map t.record.field =
        [(p.b2.toNat : Int), p.b3.toNat, p.b4.toNat, p.b5.toNat, p.b6.toNat, p.b7.toNat, u16 (u16le p.b8 p.b9)]

/-- R144: the four pairs, signed; their physical values are `PhysicalValuesAreExactAndInRange`'s. -/
def Obligations.AccelerationFrameWritesAxesAndTemperature : Prop :=
  ∀ (s : State) (p : Payload), s.cfg.wf →
    let ck := goodChecksum 0x51 p
    let t : State :=
      { s with
        record :=
          { s.record with
            acc := ⟨u16le p.b2 p.b3, u16le p.b4 p.b5, u16le p.b6 p.b7⟩
            tempRaw := u16le p.b8 p.b9
            valid := { s.record.valid with acc := true } }
        out := reply .ok [] (some .acc) }
    (∀ i ∈ [Instr.decode (p.frame 0x51 ck), Instr.decAcc p ck], exec i s = .next t) ∧
      [RecordField.accRaw 0, .accRaw 1, .accRaw 2, .tempRaw].map t.record.field =
        [s16 (u16le p.b2 p.b3), s16 (u16le p.b4 p.b5), s16 (u16le p.b6 p.b7), s16 (u16le p.b8 p.b9)]

/-- R145, whole: the same temperature slot. -/
def Obligations.GyroFrameWritesAxesAndTemperature : Prop :=
  ∀ (s : State) (p : Payload), s.cfg.wf →
    let ck := goodChecksum s.cfg.fidGyro p
    let t : State :=
      { s with
        record :=
          { s.record with
            gyro := ⟨u16le p.b2 p.b3, u16le p.b4 p.b5, u16le p.b6 p.b7⟩
            tempRaw := u16le p.b8 p.b9
            valid := { s.record.valid with gyro := true } }
        out := reply .ok [] (some .gyro) }
    (∀ i ∈ [Instr.decode (p.frame s.cfg.fidGyro ck), Instr.decGyro p ck], exec i s = .next t) ∧
      [RecordField.gyroRaw 0, .gyroRaw 1, .gyroRaw 2, .tempRaw].map t.record.field =
        [s16 (u16le p.b2 p.b3), s16 (u16le p.b4 p.b5), s16 (u16le p.b6 p.b7), s16 (u16le p.b8 p.b9)]

/-- R146: the last pair is the version, not the temperature. That it is unsigned is the spec's own decision (D15). -/
def Obligations.AngleFrameWritesAxesAndVersion : Prop :=
  ∀ (s : State) (p : Payload), s.cfg.wf →
    let ck := goodChecksum s.cfg.fidAngle p
    let t : State :=
      { s with
        record :=
          { s.record with
            angle := ⟨u16le p.b2 p.b3, u16le p.b4 p.b5, u16le p.b6 p.b7⟩
            version := u16le p.b8 p.b9
            valid := { s.record.valid with angle := true } }
        out := reply .ok [] (some .angle) }
    (∀ i ∈ [Instr.decode (p.frame s.cfg.fidAngle ck), Instr.decAngle p ck], exec i s = .next t) ∧
      [RecordField.angleRaw 0, .angleRaw 1, .angleRaw 2, .version].map t.record.field =
        [s16 (u16le p.b2 p.b3), s16 (u16le p.b4 p.b5), s16 (u16le p.b6 p.b7), u16 (u16le p.b8 p.b9)]

/-- R147: the trailing pair goes to a register of its own, which is the spec's own decision (D16). -/
def Obligations.MagneticFrameWritesAxesAndOwnTemperature : Prop :=
  ∀ (s : State) (p : Payload), s.cfg.wf →
    let ck := goodChecksum s.cfg.fidMag p
    let t : State :=
      { s with
        record :=
          { s.record with
            mag := ⟨u16le p.b2 p.b3, u16le p.b4 p.b5, u16le p.b6 p.b7⟩
            magTempRaw := u16le p.b8 p.b9
            valid := { s.record.valid with mag := true } }
        out := reply .ok [] (some .mag) }
    (∀ i ∈ [Instr.decode (p.frame s.cfg.fidMag ck), Instr.decMag p ck], exec i s = .next t) ∧
      [RecordField.mag 0, .mag 1, .mag 2, .magTempRaw].map t.record.field =
        [u16 (u16le p.b2 p.b3), u16 (u16le p.b4 p.b5), u16 (u16le p.b6 p.b7), s16 (u16le p.b8 p.b9)]

/-- R148: Q3 from its own pair, which is the spec's own decision (D13). -/
def Obligations.QuaternionFrameWritesFourComponents : Prop :=
  ∀ (s : State) (p : Payload), s.cfg.wf →
    let ck := goodChecksum s.cfg.fidQuat p
    let t : State :=
      { s with
        record :=
          { s.record with
            quat := ⟨u16le p.b2 p.b3, u16le p.b4 p.b5, u16le p.b6 p.b7, u16le p.b8 p.b9⟩
            valid := { s.record.valid with quat := true } }
        out := reply .ok [] (some .quat) }
    (∀ i ∈ [Instr.decode (p.frame s.cfg.fidQuat ck), Instr.decQuat p ck], exec i s = .next t) ∧
      [RecordField.quatRaw 0, .quatRaw 1, .quatRaw 2, .quatRaw 3].map t.record.field =
        [s16 (u16le p.b2 p.b3), s16 (u16le p.b4 p.b5), s16 (u16le p.b6 p.b7), s16 (u16le p.b8 p.b9)]

/-- R149, whole: a good frame of no family changes nothing. -/
def Obligations.UnknownFamilyChangesNothing : Prop :=
  ∀ (s : State) (p : Payload) (fid : Byte), fid ∉ s.cfg.familyIds →
    let ck := goodChecksum fid p
    ∀ i ∈ [Instr.decode (p.frame fid ck), Instr.decUnknown fid p ck],
      exec i s = .next { s with out := reply .unknownRegister [] none }

/-- R150: a bad checksum changes nothing, whatever the family id, for DECODE. That a FRAME11 row, DEC_UNKNOWN of any id
among them, tests the checksum itself and answers the same is the model's choice (log 5, log 16). -/
def Obligations.BadChecksumChangesNothing : Prop :=
  ∀ (s : State) (p : Payload) (ck : Byte),
    (∀ fid, ck ≠ goodChecksum fid p → ∀ i ∈ [Instr.decode (p.frame fid ck), Instr.decUnknown fid p ck],
      exec i s = .next { s with out := reply .checksumMismatch [] none }) ∧
    (∀ f, ck ≠ goodChecksum (familyId s.cfg f) p →
      exec (rowOf (familyId s.cfg f) p ck (some f)) s = .next { s with out := reply .checksumMismatch [] none })

/-- R140 and R213: DECODE's checks in their order; the first that fails ends the command with the state as it was. -/
def Obligations.DecodeReportsTheFirstFailingCheck : Prop :=
  ∀ (s : State) (frame : List Byte),
    (frame.length ≠ 11 → exec (.decode frame) s = .next { s with out := reply .badLength [] none }) ∧
    (∀ b rest, frame = b :: rest → rest.length = 10 → b ≠ 0x55 →
      exec (.decode frame) s = .next { s with out := reply .badStart [] none }) ∧
    (∀ ten last, frame = (0x55 :: ten) ++ [last] → ten.length = 9 →
      ((0x55 :: ten).map BitVec.toNat).sum % 256 ≠ last.toNat →
      exec (.decode frame) s = .next { s with out := reply .checksumMismatch [] none }) ∧
    (∀ fid eight last, frame = (0x55 :: fid :: eight) ++ [last] → eight.length = 8 →
      ((0x55 :: fid :: eight).map BitVec.toNat).sum % 256 = last.toNat → fid ∉ s.cfg.familyIds →
      exec (.decode frame) s = .next { s with out := reply .unknownRegister [] none })

/-- A FRAME11 row does what DECODE of its frame does; that such a frame is a message of its own is the model's choice
(log 5). -/
def Obligations.FrameRowDoesWhatDecodeOfItsFrameDoes : Prop :=
  ∀ (s : State) (p : Payload) (fid ck : Byte), s.cfg.wf →
    exec (frameRow s.cfg fid p ck) s = exec (.decode (p.frame fid ck)) s

/-- R141: a frame that is accepted updates the fields of its family "and no others" (the temperature is of two families,
R30), and sets its own valid bit and no other. -/
def Obligations.AcceptedFrameWritesOnlyItsFields : Prop :=
  ∀ (i : Instr) (s t : State) (f : Family) (bytes : List Byte), exec i s = .next t →
    t.out = reply .ok bytes (some f) →
    (∀ x, x ∉ familyFields f → t.record.field x = s.record.field x) ∧
    (∀ g, t.record.valid.get g = if g = f then true else s.record.valid.get g)

/-- R214 and R26: the record changes only in a command that answers OK with a family; no failing command ever writes
it. -/
def Obligations.RecordChangesOnlyOnAcceptedFrame : Prop :=
  ∀ (i : Instr) (s t : State), exec i s = .next t → t.record ≠ s.record →
    ∃ bytes f, t.out = reply .ok bytes (some f)

/-- R214, the first kind: these statuses leave the state unchanged; the last two when they come from another command
than PROCESS. -/
def Obligations.FailureOfTheFirstKindChangesNothing : Prop :=
  ∀ (i : Instr) (s t : State) (st : Status), exec i s = .next t → t.status = some st →
    (st ∈ [Status.failNoSpace, .failUnderrun, .badLength, .badStart, .illegalOp] ∨
      (st ∈ [Status.checksumMismatch, .unknownRegister] ∧ i ≠ .process)) →
    t = { s with out := t.out }

/-- R34: no command clears a valid bit. -/
def Obligations.CommandsNeverClearAValidBit : Prop :=
  ∀ (i : Instr) (s t : State) (f : Family), exec i s = .next t → s.record.valid.get f = true →
    t.record.valid.get f = true

/-- R30: the temperature slot is written by acceleration and angular-velocity frames only. -/
def Obligations.OnlyTwoFamiliesWriteTheTemperature : Prop :=
  ∀ (i : Instr) (s t : State), exec i s = .next t → t.record.tempRaw ≠ s.record.tempRaw →
    t.out = reply .ok [] (some .acc) ∨ t.out = reply .ok [] (some .gyro)

/-- R142: every row of its table: the value, the source's formula where it gives one, the range; and the one field marked
unreliable (R32). That the values are exact rationals is the spec's own decision (D9). -/
def Obligations.PhysicalValuesAreExactAndInRange : Prop :=
  ∀ r : Record,
    (∀ i, r.value (.accRaw i) = r.field (.accRaw i) * (49 / 10240) ∧
      r.value (.accRaw i) = (r.field (.accRaw i) : Rat) / 32768 * 16 * (98 / 10) ∧
      -1568 / 10 ≤ r.value (.accRaw i) ∧ r.value (.accRaw i) ≤ 15679521484375 / 100000000000) ∧
    (∀ i, r.value (.gyroRaw i) = r.field (.gyroRaw i) * (125 / 2048) ∧
      r.value (.gyroRaw i) = (r.field (.gyroRaw i) : Rat) / 32768 * 2000 ∧
      -2000 ≤ r.value (.gyroRaw i) ∧ r.value (.gyroRaw i) ≤ 199993896484375 / 100000000000) ∧
    (∀ i, r.value (.angleRaw i) = r.field (.angleRaw i) * (45 / 8192) ∧
      r.value (.angleRaw i) = (r.field (.angleRaw i) : Rat) / 32768 * 180 ∧
      -180 ≤ r.value (.angleRaw i) ∧ r.value (.angleRaw i) ≤ 1799945068359375 / 10000000000000) ∧
    (∀ i, r.value (.quatRaw i) = (r.field (.quatRaw i) : Rat) / 32768 ∧
      -1 ≤ r.value (.quatRaw i) ∧ r.value (.quatRaw i) ≤ 32767 / 32768) ∧
    (∀ x ∈ [RecordField.tempRaw, .magTempRaw], r.value x = (r.field x : Rat) / 100 ∧
      -32768 / 100 ≤ r.value x ∧ r.value x ≤ 32767 / 100) ∧
    (∀ x ∈ [RecordField.mag 0, .mag 1, .mag 2, .version, .millisecond], r.value x = r.field x ∧
      0 ≤ r.value x ∧ r.value x ≤ 65535) ∧
    (∀ x ∈ [RecordField.year, .month, .day, .hour, .minute, .second], r.value x = r.field x ∧
      0 ≤ r.value x ∧ r.value x ≤ 255) ∧
    (∀ x : RecordField, x.unreliable = true ↔ x = .magTempRaw)

/-! ## PROCESS -/

/-- R190: the noise leaves, then NO_START, INCOMPLETE, or the 11 bytes of the window leave and are judged as DECODE
judges them (R191). One attempt a command, INCOMPLETE and the loss of all 11 bytes are the spec's own decisions (D18,
D19, D25). -/
def Obligations.ProcessMakesOneAttemptAtOneFrame : Prop :=
  ∀ (s : State) (noise rest : List Byte), s.Inv → s.validRegion = noise ++ rest → (∀ b ∈ noise, b ≠ 0x55) →
    (rest = [] → exec .process s = .next { s with head := s.tail, available := 0, out := reply .noStart [] none }) ∧
    (∀ more, rest = 0x55 :: more → rest.length < 11 → exec .process s = .next
      { s with
        head := (s.head + noise.length) % s.cfg.capacity
        available := rest.length
        out := reply .incomplete [] none }) ∧
    (∀ window more, rest = (0x55 :: window) ++ more → window.length = 10 →
      exec .process s = exec (.decode (0x55 :: window))
        { s with head := (s.head + noise.length + 11) % s.cfg.capacity, available := more.length })

/-- R190 on a good frame of any family behind any noise, ahead of anything: OK, the group is written, the noise and the
11 bytes are gone. -/
def Obligations.ProcessDecodesAGoodFrame : Prop :=
  ∀ (s : State) (noise more : List Byte) (f : Family) (p : Payload), s.Inv → (∀ b ∈ noise, b ≠ 0x55) →
    s.validRegion = noise ++ p.frame (familyId s.cfg f) (goodChecksum (familyId s.cfg f) p) ++ more →
    exec .process s = .next
      { s with
        head := (s.head + noise.length + 11) % s.cfg.capacity
        available := more.length
        record := writeFamily f (p.frame (familyId s.cfg f) (goodChecksum (familyId s.cfg f) p)) s.record
        out := reply .ok [] (some f) }

/-- R192, progress: what each status leaves, and INCOMPLETE repeats. -/
def Obligations.ProcessProgresses : Prop :=
  ∀ s t : State, s.Inv → exec .process s = .next t →
    (t.status = some .ok ∨ t.status = some .checksumMismatch ∨ t.status = some .unknownRegister →
      t.available + 11 ≤ s.available) ∧
    (t.status = some .noStart → t.available = 0) ∧
    (t.status = some .incomplete →
      0 < t.available ∧ t.available < 11 ∧ readByte t.mem t.head = 0x55 ∧ exec .process t = .next t)

/-- R192: PROCESS repeated until NO_START or INCOMPLETE stops after at most `available`/11 + 1 calls. -/
def Obligations.RepeatedProcessStops : Prop :=
  ∀ s : State, s.Inv → (drain (s.available / 11 + 1) s).2.2 = true

/-- R6: with CAPACITY below 11 PROCESS never returns anything but NO_START or INCOMPLETE. -/
def Obligations.SmallBufferNeverYieldsAFrame : Prop :=
  ∀ s : State, s.Inv → s.cfg.capacity < 11 →
    ∃ t, exec .process s = .next t ∧ (t.status = some .noStart ∨ t.status = some .incomplete)

/-- R193, independence from fragmentation: two ways of cutting one stream in chunks, with PROCESS commands between them
anywhere, end in the same responses of frames, the same record and the same valid region. -/
def Obligations.FragmentationDoesNotMatter : Prop :=
  ∀ (s : State) (fs gs : List Feed), s.Inv → streamOf fs = streamOf gs → fits fs s = true → fits gs s = true →
    (finish fs s).1 = (finish gs s).1 ∧ (finish fs s).2.record = (finish gs s).2.record ∧
      (finish fs s).2.validRegion = (finish gs s).2.validRegion

/-! ## The request encoder -/

/-- R170: every mask is copied, bits 5 to 7 included, which is the spec's own decision (D22). -/
def Obligations.ReadRequestCarriesTheMask : Prop :=
  ∀ (s : State) (mask : Byte),
    exec (.encRead mask) s = .next { s with out := reply .ok [0xFF, 0xAA, s.cfg.regRsw, mask, 0x00] none }

/-- R171 to R175: each convenience form passes a single flag. -/
def Obligations.ReadFormsPassASingleFlag : Prop :=
  ∀ s : State,
    exec .readTime s = .next { s with out := reply .ok [0xFF, 0xAA, s.cfg.regRsw, 0x01, 0x00] none } ∧
    exec .readAcc s = .next { s with out := reply .ok [0xFF, 0xAA, s.cfg.regRsw, 0x02, 0x00] none } ∧
    exec .readGyro s = .next { s with out := reply .ok [0xFF, 0xAA, s.cfg.regRsw, 0x04, 0x00] none } ∧
    exec .readAngle s = .next { s with out := reply .ok [0xFF, 0xAA, s.cfg.regRsw, 0x08, 0x00] none } ∧
    exec .readMag s = .next { s with out := reply .ok [0xFF, 0xAA, s.cfg.regRsw, 0x10, 0x00] none }

/-- R176 to R179: configuration writes copy their register and value; that no register is refused is the spec's own
decision (D23). -/
def Obligations.ConfigurationFormsCopyTheirOperands : Prop :=
  ∀ (s : State) (reg val r : Byte),
    exec (.encCfg reg val) s = .next { s with out := reply .ok [0xFF, 0xAA, reg, val, 0x00] none } ∧
    exec .unlock s = .next { s with out := reply .ok [0xFF, 0xAA, s.cfg.regUnlock, s.cfg.valUnlock, 0x00] none } ∧
    exec (.setRate r) s = .next { s with out := reply .ok [0xFF, 0xAA, s.cfg.regRate, r, 0x00] none } ∧
    exec .save s = .next { s with out := reply .ok [0xFF, 0xAA, s.cfg.regSave, s.cfg.valSave, 0x00] none }

/-! ## The publisher -/

/-- R39 and R40: the publisher gets the latest value of a group whose valid bit is 1, with no side effect; of a group
whose valid bit is 0 it gets no value and the reader's fault, and the block goes on. That the read is an input of its own,
and that the fault is an answer, is log 11's. -/
def Obligations.PublisherReadsOnlyValidGroups : Prop :=
  ∀ (s : State) (later : List Input) (f : Family), s.port = .publish (.group f) :: later →
    (s.record.valid.get f = true → step s = .next
      { s with port := later, out := some (.fields ((familyFields f).map fun x => (x, s.record.field x))) }) ∧
    (s.record.valid.get f = false → step s = .next { s with port := later, out := some (.readerFault (.group f)) })

/-- R221: the publisher may "read any field of the record and its valid bits". A field holds a value when a family whose
frame writes it (R141) has its valid bit 1, the temperature so after either of two families (R34); then the read is
answered with it, else it is the reader's fault (R39; log 11). The valid bits are always answered. -/
def Obligations.PublisherReadsFieldsAndValidBits : Prop :=
  (∀ (s : State) (later : List Input) (x : RecordField), s.port = .publish (.field x) :: later →
    (s.record.defined x = true → step s = .next
      { s with port := later, out := some (.fields [(x, s.record.field x)]) }) ∧
    (s.record.defined x = false → step s = .next { s with port := later, out := some (.readerFault (.field x)) })) ∧
  (∀ (r : Record) (x : RecordField), r.defined x = true ↔ ∃ f, x ∈ familyFields f ∧ r.valid.get f = true) ∧
  (∀ r : Record, r.defined .tempRaw = true ↔ r.valid.acc = true ∨ r.valid.gyro = true) ∧
  (∀ (s : State) (later : List Input), s.port = .publish .validBits :: later →
    step s = .next { s with port := later, out := some (.validBits s.record.valid) })

/-! ## The whole machine -/

/-- The block is a queue of bytes beside a record: every command does on `mem`, `head`, `tail` and `available` what
`Fifo.exec` does on the valid region (files 41 to 46; R22, R51). -/
def Obligations.BlockRefinesAQueue : Prop :=
  ∀ (i : Instr) (s : State), s.Inv → i.wf s.cfg = true →
    ∃ t, exec i s = .next t ∧ t.Inv ∧ t.fifo = (Fifo.exec s.cfg i s.fifo).1 ∧
      t.out = some (.response (Fifo.exec s.cfg i s.fifo).2) ∧ t.cfg = s.cfg ∧ t.port = s.port

/-- R38: no result depends on bytes outside the valid region. -/
def Obligations.HiddenBytesNeverMatter : Prop :=
  ∀ (i : Instr) (s t : State), s.Inv → t.Inv → SameButHidden s t →
    ∃ s' t', exec i s = .next s' ∧ exec i t = .next t' ∧ SameButHidden s' t'

/-- R65, conservation: what is available at the end and what was removed is what was available and what was added, for
every sequence of commands from every state of the invariant, reset among them. -/
def Obligations.BytesAreConserved : Prop :=
  ∀ (s : State) (is : List Instr), s.Inv →
    (runCommands is s).available + ledger bytesRemoved is s = s.available + ledger bytesAdded is s
end

