-- ==== Sys2Proof/Laws/State.lean ====
section
/-! SUPPORT. One lemma per field per update of the state and the record: later proofs rewrite with these and unfold no
record update. -/

namespace Sys2Proof.Machine

section Answer
variable (st : Status) (bs : List Byte) (fam : Option Family) (s : State)

@[simp] theorem answer_cfg : (answer st bs fam s).cfg = s.cfg := rfl
@[simp] theorem answer_mem : (answer st bs fam s).mem = s.mem := rfl
@[simp] theorem answer_head : (answer st bs fam s).head = s.head := rfl
@[simp] theorem answer_tail : (answer st bs fam s).tail = s.tail := rfl
@[simp] theorem answer_available : (answer st bs fam s).available = s.available := rfl
@[simp] theorem answer_record : (answer st bs fam s).record = s.record := rfl
@[simp] theorem answer_port : (answer st bs fam s).port = s.port := rfl
@[simp] theorem answer_out : (answer st bs fam s).out = some (.response ⟨st, bs, fam⟩) := rfl
@[simp] theorem answer_validRegion : (answer st bs fam s).validRegion = s.validRegion := rfl
@[simp] theorem answer_response : (answer st bs fam s).response = some ⟨st, bs, fam⟩ := rfl
theorem raise_eq_answer : raise st s = answer st [] none s := rfl

@[simp] theorem raise_cfg : (raise st s).cfg = s.cfg := rfl
@[simp] theorem raise_mem : (raise st s).mem = s.mem := rfl
@[simp] theorem raise_head : (raise st s).head = s.head := rfl
@[simp] theorem raise_tail : (raise st s).tail = s.tail := rfl
@[simp] theorem raise_available : (raise st s).available = s.available := rfl
@[simp] theorem raise_record : (raise st s).record = s.record := rfl
@[simp] theorem raise_port : (raise st s).port = s.port := rfl
@[simp] theorem raise_out : (raise st s).out = some (.response ⟨st, [], none⟩) := rfl
@[simp] theorem raise_validRegion : (raise st s).validRegion = s.validRegion := rfl
@[simp] theorem raise_response : (raise st s).response = some ⟨st, [], none⟩ := rfl
end Answer

section Registers
variable (n : Nat) (data : List Byte) (s : State)

@[simp] theorem dropFront_cfg : (dropFront n s).cfg = s.cfg := rfl
@[simp] theorem dropFront_mem : (dropFront n s).mem = s.mem := rfl
@[simp] theorem dropFront_head : (dropFront n s).head = (s.head + n) % s.cfg.capacity := rfl
@[simp] theorem dropFront_tail : (dropFront n s).tail = s.tail := rfl
@[simp] theorem dropFront_available : (dropFront n s).available = s.available - n := rfl
@[simp] theorem dropFront_record : (dropFront n s).record = s.record := rfl
@[simp] theorem dropFront_port : (dropFront n s).port = s.port := rfl
@[simp] theorem dropFront_out : (dropFront n s).out = s.out := rfl

@[simp] theorem pushBack_cfg : (pushBack data s).cfg = s.cfg := rfl
@[simp] theorem pushBack_mem : (pushBack data s).mem = memWrite s.cfg.capacity s.mem s.tail data := rfl
@[simp] theorem pushBack_head : (pushBack data s).head = s.head := rfl
@[simp] theorem pushBack_tail : (pushBack data s).tail = (s.tail + data.length) % s.cfg.capacity := rfl
@[simp] theorem pushBack_available : (pushBack data s).available = s.available + data.length := rfl
@[simp] theorem pushBack_record : (pushBack data s).record = s.record := rfl
@[simp] theorem pushBack_port : (pushBack data s).port = s.port := rfl
@[simp] theorem pushBack_out : (pushBack data s).out = s.out := rfl
end Registers

section Reset
variable (cfg : Config) (s : State)

@[simp] theorem resetWith_cfg : (State.resetWith cfg).cfg = cfg := rfl
@[simp] theorem resetWith_head : (State.resetWith cfg).head = 0 := rfl
@[simp] theorem resetWith_tail : (State.resetWith cfg).tail = 0 := rfl
@[simp] theorem resetWith_available : (State.resetWith cfg).available = 0 := rfl
@[simp] theorem resetWith_mem : (State.resetWith cfg).mem = [] := rfl
@[simp] theorem resetWith_record : (State.resetWith cfg).record = Record.reset := rfl
@[simp] theorem assertReset_cfg : (assertReset s).cfg = s.cfg := rfl
@[simp] theorem assertReset_head : (assertReset s).head = 0 := rfl
@[simp] theorem assertReset_tail : (assertReset s).tail = 0 := rfl
@[simp] theorem assertReset_available : (assertReset s).available = 0 := rfl
@[simp] theorem assertReset_mem : (assertReset s).mem = [] := rfl
@[simp] theorem assertReset_record : (assertReset s).record = Record.reset := rfl
@[simp] theorem assertReset_port : (assertReset s).port = s.port := rfl
@[simp] theorem assertReset_out : (assertReset s).out = none := rfl
@[simp] theorem publisherRead_cfg (read : PublisherRead) : (publisherRead read s).cfg = s.cfg := rfl
@[simp] theorem publisherRead_head (read : PublisherRead) : (publisherRead read s).head = s.head := rfl
@[simp] theorem publisherRead_tail (read : PublisherRead) : (publisherRead read s).tail = s.tail := rfl
@[simp] theorem publisherRead_available (read : PublisherRead) : (publisherRead read s).available = s.available := rfl
@[simp] theorem publisherRead_mem (read : PublisherRead) : (publisherRead read s).mem = s.mem := rfl
@[simp] theorem publisherRead_record (read : PublisherRead) : (publisherRead read s).record = s.record := rfl
@[simp] theorem publisherRead_port (read : PublisherRead) : (publisherRead read s).port = s.port := rfl
@[simp] theorem publisherRead_out (read : PublisherRead) :
    (publisherRead read s).out = some (publisherAnswer read s.record) := rfl
end Reset

section Valid
variable (v : ValidBits)

theorem get_set (f g : Family) : (v.set f).get g = (decide (f = g) || v.get g) := by
  cases f <;> cases g <;> simp [ValidBits.set, ValidBits.get]

@[simp] theorem get_set_self (f : Family) : (v.set f).get f = true := by simp [get_set]

/-- A valid bit that is set stays set (R34). -/
theorem get_set_of_get {f g : Family} (h : v.get g = true) : (v.set f).get g = true := by simp [get_set, h]
end Valid

section WriteFamily
variable (f : Family) (frame : List Byte) (r : Record)

@[simp] theorem writeFamily_valid : (writeFamily f frame r).valid = r.valid.set f := by cases f <;> rfl

/-- A family's frame writes the fields of its group and no other (R141). -/
theorem writeFamily_field_of_notMem {x : RecordField} (hx : x ∉ familyFields f) :
    (writeFamily f frame r).field x = r.field x := by
  cases f <;> cases x <;>
    first
    | rfl
    | (exfalso; apply hx; simp [familyFields]; done)
    | (rename_i i; exfalso; apply hx; fin_cases i <;> simp [familyFields])

end WriteFamily

end Sys2Proof.Machine
end

