-- ==== Sys2Proof/Laws/Memory.lean ====
section
/-! SUPPORT. The storage: a byte reads back as it was written, writes keep the canonical form, equal contents are equal
data, and `MemRead` and `MemWrite` as sequences (00_scope.md R10, 20_memory.md R52). -/

namespace Sys2Proof.Machine

/-! ## One byte -/

theorem readByte_of_lt {m : Memory} {lo a : Nat} (h : memoryWfFrom lo m = true) (ha : a < lo) :
    readByte m a = unlistedByte := by
  induction m generalizing lo with
  | nil => rfl
  | cons c m ih =>
    obtain ⟨x, v⟩ := c
    simp only [memoryWfFrom, Bool.and_eq_true, decide_eq_true_eq] at h
    have hx : x ≠ a := by omega
    simp only [readByte, if_neg hx]
    exact ih h.2 (by omega)

/-- A byte reads back as it was written, in any memory of canonical form. -/
theorem readByte_writeByte {m : Memory} {lo : Nat} (h : memoryWfFrom lo m = true) (a b : _) (x : Nat) :
    readByte (writeByte m a b) x = if x = a then b else readByte m x := by
  induction m generalizing lo with
  | nil =>
    by_cases hb : b = unlistedByte <;> by_cases hx : x = a <;>
      simp [writeByte, readByte, hb, hx, eq_comm (a := a)]
  | cons c m ih =>
    obtain ⟨y, v⟩ := c
    simp only [memoryWfFrom, Bool.and_eq_true, decide_eq_true_eq] at h
    obtain ⟨⟨-, hv⟩, hm⟩ := h
    simp only [writeByte]
    rcases Nat.lt_trichotomy a y with hay | hay | hay
    · rw [if_pos hay]
      have hya : y ≠ a := by omega
      have hout : readByte m a = unlistedByte := readByte_of_lt hm (by omega)
      by_cases hx : x = a
      · subst hx
        by_cases hb : b = unlistedByte <;> simp [readByte, hb, hya, hout]
      · by_cases hb : b = unlistedByte <;> simp [readByte, hb, hx, Ne.symm hx]
    · subst hay
      rw [if_neg (by omega), if_pos rfl]
      have hout : readByte m a = unlistedByte := readByte_of_lt hm (by omega)
      by_cases hx : x = a
      · subst hx
        by_cases hb : b = unlistedByte <;> simp [readByte, hb, hout]
      · by_cases hb : b = unlistedByte <;> simp [readByte, hb, hx, Ne.symm hx]
    · rw [if_neg (by omega), if_neg (by omega)]
      simp only [readByte, ih hm]
      by_cases hx : x = a
      · subst hx; simp [show y ≠ x by omega]
      · simp [hx]

theorem writeByte_wfFrom {m : Memory} {lo a : Nat} (b : Byte) (h : memoryWfFrom lo m = true) (ha : lo ≤ a) :
    memoryWfFrom lo (writeByte m a b) = true := by
  induction m generalizing lo with
  | nil => by_cases hb : b = unlistedByte <;> simp [writeByte, memoryWfFrom, hb, ha]
  | cons c m ih =>
    obtain ⟨y, v⟩ := c
    simp only [memoryWfFrom, Bool.and_eq_true, decide_eq_true_eq] at h
    obtain ⟨⟨hy, hv⟩, hm⟩ := h
    simp only [writeByte]
    rcases Nat.lt_trichotomy a y with hay | hay | hay
    · rw [if_pos hay]
      by_cases hb : b = unlistedByte
      · simp [memoryWfFrom, hb, hv, hm, hy]
      · simp [memoryWfFrom, hb, hv, hm, ha, Nat.succ_le_of_lt hay]
    · subst hay
      rw [if_neg (by omega), if_pos rfl]
      by_cases hb : b = unlistedByte
      · rw [if_pos hb]
        clear ih hv
        cases m with
        | nil => rfl
        | cons d m =>
          obtain ⟨z, w⟩ := d
          simp only [memoryWfFrom, Bool.and_eq_true, decide_eq_true_eq] at hm ⊢
          exact ⟨⟨by omega, hm.1.2⟩, hm.2⟩
      · simp [memoryWfFrom, hb, hm, hy]
    · rw [if_neg (by omega), if_neg (by omega)]
      simp [memoryWfFrom, hy, hv, ih hm (by omega)]

/-- A write keeps the canonical form. -/
theorem writeByte_wf {m : Memory} (a : Nat) (b : Byte) (h : m.wf = true) : Memory.wf (writeByte m a b) = true :=
  writeByte_wfFrom b h (Nat.zero_le a)

/-- A write inside the address space stays inside it. -/
theorem writeByte_within {m : Memory} {cap a : Nat} (b : Byte) (h : m.within cap = true) (ha : a < cap) :
    Memory.within cap (writeByte m a b) = true := by
  induction m with
  | nil => by_cases hb : b = unlistedByte <;> simp [writeByte, Memory.within, hb, ha]
  | cons c m ih =>
    obtain ⟨y, v⟩ := c
    rw [Memory.within, List.all_cons, Bool.and_eq_true, decide_eq_true_eq] at h
    obtain ⟨hy, hm⟩ := h
    have hm' := ih hm
    unfold Memory.within at hm'
    simp only [writeByte, Memory.within]
    split_ifs <;> simp only [List.all_cons, hy, ha, hm, hm', decide_true, Bool.and_self]

/-- Equal contents are equal data. -/
theorem memory_ext {m₁ m₂ : Memory} {lo : Nat} (h₁ : memoryWfFrom lo m₁ = true) (h₂ : memoryWfFrom lo m₂ = true)
    (h : ∀ a, readByte m₁ a = readByte m₂ a) : m₁ = m₂ := by
  induction m₁ generalizing m₂ lo with
  | nil =>
    cases m₂ with
    | nil => rfl
    | cons d m₂ =>
      obtain ⟨z, w⟩ := d
      simp only [memoryWfFrom, Bool.and_eq_true, decide_eq_true_eq] at h₂
      have := h z
      simp [readByte] at this
      exact absurd this.symm h₂.1.2
  | cons c m₁ ih =>
    obtain ⟨y, v⟩ := c
    simp only [memoryWfFrom, Bool.and_eq_true, decide_eq_true_eq] at h₁
    cases m₂ with
    | nil =>
      have := h y
      simp [readByte] at this
      exact absurd this h₁.1.2
    | cons d m₂ =>
      obtain ⟨z, w⟩ := d
      simp only [memoryWfFrom, Bool.and_eq_true, decide_eq_true_eq] at h₂
      have hyz : y = z := by
        rcases Nat.lt_trichotomy y z with hlt | heq | hgt
        · have := h y
          rw [readByte, if_pos rfl, readByte, if_neg (by omega), readByte_of_lt h₂.2 (by omega)] at this
          exact absurd this h₁.1.2
        · exact heq
        · have := h z
          rw [readByte, if_neg (by omega), readByte_of_lt h₁.2 (by omega), readByte, if_pos rfl] at this
          exact absurd this.symm h₂.1.2
      subst hyz
      have hvw : v = w := by simpa [readByte] using h y
      subst hvw
      congr 1
      refine ih h₁.2 h₂.2 fun a => ?_
      by_cases ha : y = a
      · subst ha
        rw [readByte_of_lt h₁.2 (by omega), readByte_of_lt h₂.2 (by omega)]
      · simpa [readByte, ha] using h a

/-! ## MemRead -/

@[simp] theorem memRead_length (cap : Nat) (m : Memory) (addr n : Nat) : (memRead cap m addr n).length = n := by
  simp [memRead]

@[simp] theorem memRead_zero (cap : Nat) (m : Memory) (addr : Nat) : memRead cap m addr 0 = [] := rfl

theorem memRead_getElem {cap : Nat} {m : Memory} {addr n k : Nat} (hk : k < (memRead cap m addr n).length) :
    (memRead cap m addr n)[k] = readByte m ((addr + k) % cap) := by simp [memRead]

@[simp] theorem memRead_mod (cap : Nat) (m : Memory) (addr n : Nat) :
    memRead cap m (addr % cap) n = memRead cap m addr n := by simp [memRead, Nat.mod_add_mod]

/-- A long read is a short one and the read of what follows. -/
theorem memRead_add (cap : Nat) (m : Memory) (addr n k : Nat) :
    memRead cap m addr (n + k) = memRead cap m addr n ++ memRead cap m (addr + n) k := by
  simp [memRead, List.range_add, Function.comp_def, Nat.add_assoc]

theorem memRead_succ (cap : Nat) (m : Memory) (addr n : Nat) :
    memRead cap m addr (n + 1) = readByte m (addr % cap) :: memRead cap m (addr + 1) n := by
  rw [Nat.add_comm n 1, memRead_add]; rfl

theorem memRead_drop {cap : Nat} {m : Memory} {addr n k : Nat} (h : k ≤ n) :
    (memRead cap m addr n).drop k = memRead cap m (addr + k) (n - k) := by
  obtain ⟨d, rfl⟩ := Nat.exists_eq_add_of_le h
  rw [memRead_add, List.drop_append_of_le_length (by simp)]
  simp

theorem memRead_take {cap : Nat} {m : Memory} {addr n k : Nat} (h : k ≤ n) :
    (memRead cap m addr n).take k = memRead cap m addr k := by
  obtain ⟨d, rfl⟩ := Nat.exists_eq_add_of_le h
  rw [memRead_add, List.take_append_of_le_length (by simp), List.take_of_length_le (by simp)]

theorem memRead_congr {cap : Nat} {m₁ m₂ : Memory} {addr n : Nat}
    (h : ∀ k < n, readByte m₁ ((addr + k) % cap) = readByte m₂ ((addr + k) % cap)) :
    memRead cap m₁ addr n = memRead cap m₂ addr n := by
  simp only [memRead]
  exact List.map_congr_left fun k hk => h k (List.mem_range.mp hk)

/-! ## MemWrite -/

/-- MemWrite keeps the canonical form and the address space. -/
theorem memWrite_wf {cap : Nat} (hcap : 0 < cap) (v : List Byte) {m : Memory} {addr : Nat} (h : m.wf = true)
    (hin : m.within cap = true) :
    Memory.wf (memWrite cap m addr v) = true ∧ Memory.within cap (memWrite cap m addr v) = true := by
  induction v generalizing m addr with
  | nil => exact ⟨h, hin⟩
  | cons b v ih => exact ih (writeByte_wf _ b h) (writeByte_within b hin (Nat.mod_lt _ hcap))

theorem mod_add_inj {cap a k l : Nat} (hk : k < cap) (hl : l < cap) (h : (a + k) % cap = (a + l) % cap) : k = l := by
  have := (Nat.ModEq.add_left_cancel' a (show (a + k) ≡ (a + l) [MOD cap] from h))
  rwa [Nat.ModEq, Nat.mod_eq_of_lt hk, Nat.mod_eq_of_lt hl] at this

/-- A byte outside the bytes written reads as before. -/
theorem readByte_memWrite_of_ne {cap : Nat} (v : List Byte) {m : Memory} {addr x : Nat} (hm : m.wf = true)
    (hx : ∀ k < v.length, x ≠ (addr + k) % cap) : readByte (memWrite cap m addr v) x = readByte m x := by
  induction v generalizing m addr with
  | nil => rfl
  | cons b v ih =>
    rw [memWrite, ih (writeByte_wf _ b hm) (fun k hk => ?_), readByte_writeByte hm]
    · rw [if_neg (by simpa using hx 0 (by simp))]
    · have := hx (k + 1) (by simpa using hk)
      rwa [show addr + 1 + k = addr + (k + 1) by omega]

/-- The bytes written read back, as long as no index is written twice. -/
theorem readByte_memWrite {cap : Nat} (v : List Byte) {m : Memory} {addr k : Nat} (hm : m.wf = true)
    (hlen : v.length ≤ cap) (hk : k < v.length) :
    readByte (memWrite cap m addr v) ((addr + k) % cap) = v[k] := by
  induction v generalizing m addr k with
  | nil => simp at hk
  | cons b v ih =>
    have hlen' : v.length + 1 ≤ cap := by simpa using hlen
    rw [memWrite]
    cases k with
    | zero =>
      rw [readByte_memWrite_of_ne v (writeByte_wf _ b hm) (fun j hj => ?_), readByte_writeByte hm]
      · simp
      · intro h
        have := mod_add_inj (cap := cap) (a := addr) (k := 0) (l := j + 1) (by omega) (by omega)
          (by rw [h]; congr 1; omega)
        omega
    | succ k =>
      have := ih (m := writeByte m (addr % cap) b) (addr := addr + 1) (k := k) (writeByte_wf _ b hm) (by omega)
        (by simpa using hk)
      rw [show addr + (k + 1) = addr + 1 + k by omega, this]
      rfl

/-- MemRead of what MemWrite wrote. -/
theorem memRead_memWrite_self {cap : Nat} (v : List Byte) {m : Memory} {addr : Nat} (hm : m.wf = true)
    (hlen : v.length ≤ cap) : memRead cap (memWrite cap m addr v) addr v.length = v := by
  apply List.ext_getElem (by simp)
  intro k h1 h2
  rw [memRead_getElem, readByte_memWrite v hm hlen h2]

end Sys2Proof.Machine
end

