-- ==== Sys2Proof/Laws/Buffer.lean ====
section
/-! SUPPORT. What the shared operations on the buffer do to the invariant and to the valid region: `answer`, `dropFront`,
`pushBack`, `scan` (41_circular_byte_buffer.md, 42_frame_synchronizer.md). -/

namespace Sys2Proof.Machine

/-! ## The invariant -/

theorem State.Inv.cap_pos {s : State} (h : s.Inv) : 0 < s.cfg.capacity := h.1.1

theorem inv_resetWith {cfg : Config} (h : cfg.wf) : (State.resetWith cfg).Inv := by
  have hc : 0 < cfg.capacity := h.1
  exact ⟨h, rfl, rfl, hc, hc, Nat.zero_le _, by simp⟩

/-- The invariant reads neither the record nor the inputs nor the response. -/
theorem inv_congr {s t : State} (hc : t.cfg = s.cfg) (hm : t.mem = s.mem) (hh : t.head = s.head)
    (ht : t.tail = s.tail) (ha : t.available = s.available) (h : s.Inv) : t.Inv := by
  unfold State.Inv at *
  rwa [hc, hm, hh, ht, ha]

theorem inv_answer {s : State} (st : Status) (bs : List Byte) (fam : Option Family) (h : s.Inv) :
    (answer st bs fam s).Inv := h

theorem inv_raise {s : State} (st : Status) (h : s.Inv) : (raise st s).Inv := h

theorem inv_dropFront {s : State} {n : Nat} (hn : n ≤ s.available) (h : s.Inv) : (dropFront n s).Inv := by
  obtain ⟨hw, hm, hi, hh, ht, ha, he⟩ := h
  refine ⟨hw, hm, hi, Nat.mod_lt _ hw.1, ht, (Nat.sub_le _ _).trans ha, ?_⟩
  simp only [dropFront_tail, dropFront_head, dropFront_available, dropFront_cfg, he, Nat.mod_add_mod]
  congr 1; omega

theorem inv_pushBack {s : State} {data : List Byte} (hn : s.available + data.length ≤ s.cfg.capacity) (h : s.Inv) :
    (pushBack data s).Inv := by
  obtain ⟨hw, hm, hi, hh, ht, ha, he⟩ := h
  obtain ⟨hm', hi'⟩ := memWrite_wf hw.1 data (addr := s.tail) hm hi
  refine ⟨hw, hm', hi', hh, Nat.mod_lt _ hw.1, hn, ?_⟩
  simp only [pushBack_tail, pushBack_head, pushBack_available, pushBack_cfg, he, Nat.mod_add_mod]
  congr 1; omega

/-! ## The valid region (R22) -/

@[simp] theorem validRegion_length (s : State) : s.validRegion.length = s.available := memRead_length _ _ _ _

theorem validRegion_congr {s t : State} (hc : t.cfg = s.cfg) (hm : t.mem = s.mem) (hh : t.head = s.head)
    (ha : t.available = s.available) : t.validRegion = s.validRegion := by
  simp [State.validRegion, hc, hm, hh, ha]

theorem validRegion_eq_nil {s : State} : s.validRegion = [] ↔ s.available = 0 := by
  rw [← List.length_eq_zero_iff, validRegion_length]

/-- The bytes that leave are the oldest (R101). -/
theorem validRegion_dropFront {s : State} {n : Nat} (hn : n ≤ s.available) :
    (dropFront n s).validRegion = s.validRegion.drop n := by
  simp only [State.validRegion, dropFront_cfg, dropFront_mem, dropFront_head, dropFront_available, memRead_mod]
  rw [memRead_drop hn]

theorem memRead_head_take {s : State} {n : Nat} (hn : n ≤ s.available) :
    memRead s.cfg.capacity s.mem s.head n = s.validRegion.take n := (memRead_take hn).symm

/-- The bytes that join are the newest, and the ones that were there stay (R100). -/
theorem validRegion_pushBack {s : State} {data : List Byte} (hn : s.available + data.length ≤ s.cfg.capacity)
    (h : s.Inv) : (pushBack data s).validRegion = s.validRegion ++ data := by
  obtain ⟨hw, hm, hi, hh, ht, ha, he⟩ := h
  simp only [State.validRegion, pushBack_cfg, pushBack_mem, pushBack_head, pushBack_available, memRead_add]
  congr 1
  · refine memRead_congr fun k hk => readByte_memWrite_of_ne _ hm fun j hj hx => ?_
    rw [he, Nat.mod_add_mod, Nat.add_assoc] at hx
    have := mod_add_inj (by omega) (by omega) hx
    omega
  · rw [← memRead_mod, ← he]
    exact memRead_memWrite_self data hm (by omega)

/-- The oldest valid byte stands at `head` (R22). -/
theorem readByte_head {s : State} (h : s.head < s.cfg.capacity) {b : Byte} {r : List Byte}
    (hv : s.validRegion = b :: r) : readByte s.mem s.head = b := by
  obtain ⟨n, hn⟩ : ∃ n, s.available = n + 1 := ⟨r.length, by rw [← validRegion_length, hv]; rfl⟩
  rw [State.validRegion, hn, memRead_succ, Nat.mod_eq_of_lt h] at hv
  injection hv

/-! ## The synchronizer's loop (R120) -/

@[simp] theorem dropFront_zero {s : State} (h : s.head < s.cfg.capacity) : dropFront 0 s = s := by
  simp [dropFront, Nat.mod_eq_of_lt h]

theorem dropFront_dropFront (n k : Nat) (s : State) : dropFront k (dropFront n s) = dropFront (n + k) s := by
  simp [dropFront, Nat.add_assoc, Nat.sub_sub]

/-- How far the synchronizer goes: to the first start marker, or to the end (R120, closed form). -/
theorem scan_eq {s : State} (h : s.head < s.cfg.capacity) (n : Nat) :
    scan n s =
      (decide (((memRead s.cfg.capacity s.mem s.head n).takeWhile (· != START)).length < n),
        dropFront ((memRead s.cfg.capacity s.mem s.head n).takeWhile (· != START)).length s) := by
  induction n generalizing s with
  | zero => simp [scan, h]
  | succ n ih =>
    rw [memRead_succ, Nat.mod_eq_of_lt h]
    by_cases hb : readByte s.mem s.head = START
    · simp [scan, hb, h]
    · have hd : (dropFront 1 s).head < (dropFront 1 s).cfg.capacity := Nat.mod_lt _ (by omega)
      have hlen : ∀ l : List Byte, (List.takeWhile (· != START) (readByte s.mem s.head :: l)).length
          = 1 + (List.takeWhile (· != START) l).length := by
        intro l; rw [List.takeWhile_cons_of_pos (by simpa using hb), List.length_cons, Nat.add_comm]
      rw [scan, if_neg hb, ih hd, dropFront_dropFront, hlen]
      simp only [dropFront_cfg, dropFront_mem, dropFront_head, memRead_mod, Prod.mk.injEq, and_true,
        decide_eq_decide]
      omega

theorem fromStart_eq_drop (q : List Byte) : fromStart q = q.drop (q.takeWhile (· != START)).length := by
  unfold fromStart
  induction q with
  | nil => rfl
  | cons b q ih => by_cases h : b = START <;> simp [h, ih]

theorem fromStart_length_le (q : List Byte) : (fromStart q).length ≤ q.length := (List.dropWhile_sublist _).length_le

theorem noiseLength_eq (q : List Byte) : noiseLength q = (q.takeWhile (· != START)).length := by
  have := congrArg List.length (List.takeWhile_append_dropWhile (p := (· != START)) (l := q))
  simp only [List.length_append] at this
  unfold noiseLength fromStart
  omega

theorem noiseLength_le (q : List Byte) : noiseLength q ≤ q.length := Nat.sub_le _ _

theorem drop_noiseLength (q : List Byte) : q.drop (noiseLength q) = fromStart q := by
  rw [noiseLength_eq, ← fromStart_eq_drop]

theorem fromStart_length (q : List Byte) : (fromStart q).length = q.length - noiseLength q := by
  rw [← drop_noiseLength, List.length_drop]

/-- What remains begins with the start marker (R121). -/
theorem fromStart_head {q : List Byte} {b : Byte} {r : List Byte} (h : fromStart q = b :: r) : b = START := by
  unfold fromStart at h
  induction q with
  | nil => simp at h
  | cons c q ih =>
    by_cases hc : c = START
    · simp [hc] at h; exact h.1.symm
    · rw [List.dropWhile_cons_of_pos (by simpa using hc)] at h; exact ih h

theorem fromStart_idem (q : List Byte) : fromStart (fromStart q) = fromStart q := by
  cases h : fromStart q with
  | nil => rfl
  | cons b r => rw [fromStart, List.dropWhile_cons_of_neg]; simpa using fromStart_head h

/-- The synchronizer on the valid region (R120, R121): the noise prefix leaves. -/
theorem scan_available {s : State} (h : s.head < s.cfg.capacity) :
    scan s.available s =
      (decide (noiseLength s.validRegion < s.available), dropFront (noiseLength s.validRegion) s) := by
  rw [scan_eq h, noiseLength_eq]; rfl

theorem noiseLength_validRegion_le (s : State) : noiseLength s.validRegion ≤ s.available := by
  simpa using noiseLength_le s.validRegion

end Sys2Proof.Machine
end

