-- ==== Sys2Proof/Laws/Exec.lean ====
section
/-! SUPPORT. What the shared operations of the decoder and of PROCESS can do, each said once, in the words of the queue
(44_register_decoder.md R140, 46_pipeline.md R190). -/

namespace Sys2Proof.Machine

/-! ## The arms of `exec` -/

@[simp] theorem exec_append (data : List Byte) (s : State) : exec (.append data) s = execAppend data s := rfl
@[simp] theorem exec_consume (size : Nat) (s : State) : exec (.consume size) s = execConsume size s := rfl
@[simp] theorem exec_peek (s : State) : exec .peek s = execPeek s := rfl
@[simp] theorem exec_sync (s : State) : exec .sync s = execSync s := rfl
@[simp] theorem exec_verify (frame : List Byte) (s : State) : exec (.verify frame) s = execVerify frame s := rfl
@[simp] theorem exec_decode (frame : List Byte) (s : State) : exec (.decode frame) s = execDecode frame s := rfl
@[simp] theorem exec_process (s : State) : exec .process s = execProcess s := rfl
@[simp] theorem exec_encRead (mask : Byte) (s : State) : exec (.encRead mask) s = execEncRead mask s := rfl
@[simp] theorem exec_encCfg (reg : Byte) (val : Byte) (s : State) : exec (.encCfg reg val) s = execEncCfg reg val s := rfl
@[simp] theorem exec_flush (s : State) : exec .flush s = execFlush s := rfl
@[simp] theorem exec_illegal (op : BitVec 4) (s : State) : exec (.illegal op) s = execIllegal op s := rfl
@[simp] theorem exec_decTime (p : Payload) (ck : Byte) (s : State) : exec (.decTime p ck) s = execArm .time p ck s := rfl
@[simp] theorem exec_decAcc (p : Payload) (ck : Byte) (s : State) : exec (.decAcc p ck) s = execArm .acc p ck s := rfl
@[simp] theorem exec_decGyro (p : Payload) (ck : Byte) (s : State) : exec (.decGyro p ck) s = execArm .gyro p ck s := rfl
@[simp] theorem exec_decAngle (p : Payload) (ck : Byte) (s : State) : exec (.decAngle p ck) s = execArm .angle p ck s := rfl
@[simp] theorem exec_decMag (p : Payload) (ck : Byte) (s : State) : exec (.decMag p ck) s = execArm .mag p ck s := rfl
@[simp] theorem exec_decQuat (p : Payload) (ck : Byte) (s : State) : exec (.decQuat p ck) s = execArm .quat p ck s := rfl
@[simp] theorem exec_decUnknown (fid : Byte) (p : Payload) (ck : Byte) (s : State) : exec (.decUnknown fid p ck) s = execDecUnknown fid p ck s := rfl
@[simp] theorem exec_readTime (s : State) : exec .readTime s = execReadTime s := rfl
@[simp] theorem exec_readAcc (s : State) : exec .readAcc s = execReadAcc s := rfl
@[simp] theorem exec_readGyro (s : State) : exec .readGyro s = execReadGyro s := rfl
@[simp] theorem exec_readAngle (s : State) : exec .readAngle s = execReadAngle s := rfl
@[simp] theorem exec_readMag (s : State) : exec .readMag s = execReadMag s := rfl
@[simp] theorem exec_unlock (s : State) : exec .unlock s = execUnlock s := rfl
@[simp] theorem exec_setRate (r : Byte) (s : State) : exec (.setRate r) s = execSetRate r s := rfl
@[simp] theorem exec_save (s : State) : exec .save s = execSave s := rfl

/-! ## The shared operations -/

/-- A response given in full. -/
theorem answer_eq (r : Response) (s : State) : answer r.status r.bytes r.family s = { s with out := some (.response r) } := rfl

/-- What `decodeWindow` does: the frame's verdict on the record, nothing else (R140, R149, R150). -/
theorem decodeWindow_eq (frame : List Byte) (s : State) :
    decodeWindow frame s =
      { s with
        record := (frameVerdict s.cfg frame s.record).1
        out := some (.response (frameVerdict s.cfg frame s.record).2) } := by
  unfold decodeWindow frameVerdict checksumGood
  by_cases h : csum frame = frameByte frame 10
  · simp only [h, beq_self_eq_true, if_true, ne_eq, not_true, if_false]
    cases familyOf s.cfg (frameByte frame 1) <;> rfl
  · simp only [h, beq_eq_false_iff_ne.mpr h, ne_eq, not_false_eq_true, if_true]; rfl

/-- What DECODE does: the verdict of its checks in their order on the record, nothing else (R140). -/
theorem execDecode_eq (frame : List Byte) (s : State) :
    execDecode frame s = .next
      { s with
        record := (decodeVerdict s.cfg frame s.record).1
        out := some (.response (decodeVerdict s.cfg frame s.record).2) } := by
  unfold execDecode decodeVerdict
  simp only [FRAME_LEN, decodeWindow_eq]
  split_ifs <;> rfl

/-- A frame built of its parts, byte by byte. -/
@[simp] theorem frame_length (p : Payload) (fid ck : Byte) : (p.frame fid ck).length = 11 := rfl
@[simp] theorem frameByte_zero (p : Payload) (fid ck : Byte) : frameByte (p.frame fid ck) 0 = START := rfl
@[simp] theorem frameByte_one (p : Payload) (fid ck : Byte) : frameByte (p.frame fid ck) 1 = fid := rfl
@[simp] theorem frameByte_ten (p : Payload) (fid ck : Byte) : frameByte (p.frame fid ck) 10 = ck := rfl

/-- The checksum of a frame built of its parts, as a sum of bytes (R130). -/
theorem csum_frame (p : Payload) (fid ck : Byte) : csum (p.frame fid ck) = goodChecksum fid p := by
  simp [csum, Payload.frame, Payload.bytes, sum8, BitVec.ofNat_add, goodChecksum, START, add_assoc]

/-- What a FRAME11 row of a family does: what DECODE of its frame does (R88, R140). -/
theorem execArm_eq {s : State} (h : s.cfg.wf) (f : Family) (p : Payload) (ck : Byte) :
    execArm f p ck s = execDecode (p.frame (familyId s.cfg f) ck) s := by
  simp [execArm, execDecode, decodeWindow, FRAME_LEN, familyOf_familyId h.2 f]
  split_ifs <;> rfl

/-- What DEC_UNKNOWN does: what DECODE of its frame does (R149). -/
theorem execDecUnknown_eq {s : State} {fid : Byte} (h : familyOf s.cfg fid = none) (p : Payload) (ck : Byte) :
    execDecUnknown fid p ck s = execDecode (p.frame fid ck) s := by
  simp [execDecUnknown, execDecode, decodeWindow, FRAME_LEN, h]
  split_ifs <;> rfl

/-- What PROCESS does: the noise prefix leaves, then a window of 11 bytes, if there is one, leaves and is judged
(R190). -/
theorem execProcess_eq {s : State} (h : s.head < s.cfg.capacity) :
    execProcess s = .next (processFrom (dropFront (noiseLength s.validRegion) s)) := by
  rw [execProcess, scan_available h]

/-- What SYNC does: the noise prefix leaves (R120, R121). -/
theorem execSync_eq {s : State} (h : s.head < s.cfg.capacity) :
    execSync s = .next (answer (if fromStart s.validRegion = [] then .noStart else .ok) [] none
      (dropFront (noiseLength s.validRegion) s)) := by
  have hlen := fromStart_length s.validRegion
  have hle := noiseLength_validRegion_le s
  rw [validRegion_length] at hlen
  rw [execSync, scan_available h]
  by_cases hn : noiseLength s.validRegion < s.available
  · have : fromStart s.validRegion ≠ [] := fun h0 => by rw [h0] at hlen; simp at hlen; omega
    simp [hn, this]
  · have : fromStart s.validRegion = [] := List.eq_nil_of_length_eq_zero (by omega)
    simp only [hn, decide_false, this, if_true, raise]
    congr 1
    simp only [answer, dropFront, State.mk.injEq, and_true, true_and]
    omega

/-- What VERIFY does: it answers, and nothing else (R131). -/
theorem execVerify_eq (frame : List Byte) (s : State) :
    execVerify frame s = .next (raise (if frame.length ≠ 11 then .badLength
      else if csum frame = frameByte frame 10 then .ok else .checksumMismatch) s) := by
  unfold execVerify checksumGood FRAME_LEN
  by_cases h : frame.length = 11 <;> by_cases h' : csum frame = frameByte frame 10 <;>
    simp [h, h', raise]

/-- What a FRAME11 row can do, under any configuration: refuse the checksum, or write its group. -/
theorem execArm_cases (f : Family) (p : Payload) (ck : Byte) (s : State) :
    execArm f p ck s = .next (raise .checksumMismatch s) ∨
      ∃ frame, execArm f p ck s = .next (decodeArm f frame s) := by
  unfold execArm; split_ifs
  · exact .inr ⟨_, rfl⟩
  · exact .inl rfl

/-- What the judgement of a window can do: refuse the checksum or the family, or write one group. -/
theorem decodeWindow_cases (frame : List Byte) (s : State) :
    decodeWindow frame s = raise .checksumMismatch s ∨ decodeWindow frame s = raise .unknownRegister s ∨
      ∃ f, decodeWindow frame s = decodeArm f frame s := by
  unfold decodeWindow
  split_ifs
  · cases familyOf s.cfg (frameByte frame 1) with
    | none => exact .inr (.inl rfl)
    | some f => exact .inr (.inr ⟨f, rfl⟩)
  · exact .inl rfl

/-- The synchronizer's loop writes `head` and `available` and nothing else (R120). -/
theorem scan_shape (n : Nat) (s : State) : ∃ b h a, scan n s = (b, { s with head := h, available := a }) := by
  induction n generalizing s with
  | zero => exact ⟨false, s.head, s.available, rfl⟩
  | succ n ih =>
    rw [scan]; split_ifs
    · exact ⟨true, s.head, s.available, rfl⟩
    · obtain ⟨b, h, a, e⟩ := ih (dropFront 1 s)
      exact ⟨b, h, a, e⟩

/-! ## What an instruction can do, said once for all of them -/

/-- The effect of an instruction on the state: nothing but a response, or what its family of commands writes. -/
inductive Effect (s : State) : Instr → State → Prop where
  /-- Only the response. -/
  | quiet (i : Instr) (r : Response) (hf : r.family = none) (hp : i ≠ .process) :
    Effect s i { s with out := some (.response r) }
  | append (data : List Byte) (h : s.available + data.length ≤ s.cfg.capacity) :
    Effect s (.append data) (answer .ok [] none (pushBack data s))
  | consume (n : Nat) (h : n ≤ s.available) :
    Effect s (.consume n) (answer .ok (memRead s.cfg.capacity s.mem s.head n) none (dropFront n s))
  | flush : Effect s .flush (answer .ok [] none (dropFront s.available s))
  | sync (h a : Nat) (st : Status) (hst : st = .ok ∨ st = .noStart) :
    Effect s .sync (raise st { s with head := h, available := a })
  /-- A frame accepted by DECODE or a FRAME11 row. -/
  | accept (i : Instr) (f : Family) (frame : List Byte) (hp : i ≠ .process) (hd : ∀ d, i ≠ .append d)
    (hc : ∀ n, i ≠ .consume n) (hf : i ≠ .flush) (hs : i ≠ .sync) : Effect s i (decodeArm f frame s)
  | processRefuses (h a : Nat) (st : Status)
    (hst : st = .noStart ∨ st = .incomplete ∨ st = .checksumMismatch ∨ st = .unknownRegister) :
    Effect s .process (raise st { s with head := h, available := a })
  | processAccepts (h a : Nat) (f : Family) (frame : List Byte) :
    Effect s .process (decodeArm f frame { s with head := h, available := a })

/-- Every instruction answers a next state, and its effect is one of these. -/
theorem exec_effect (i : Instr) (s : State) : ∃ t, exec i s = .next t ∧ Effect s i t := by
  have quiet : ∀ (i : Instr) (st : Status) (bs : List Byte), i ≠ .process →
      Effect s i (answer st bs none s) := fun i st bs hp => .quiet i ⟨st, bs, none⟩ rfl hp
  have arm : ∀ (i : Instr) (f : Family) (p : Payload) (ck : Byte), i ≠ .process → (∀ d, i ≠ .append d) →
      (∀ n, i ≠ .consume n) → i ≠ .flush → i ≠ .sync → exec i s = execArm f p ck s →
      ∃ t, exec i s = .next t ∧ Effect s i t := by
    intro i f p ck hp hd hc hf hs he
    rcases execArm_cases f p ck s with h | ⟨frame, h⟩
    · exact ⟨_, he.trans h, quiet i _ _ hp⟩
    · exact ⟨_, he.trans h, .accept i f frame hp hd hc hf hs⟩
  cases i
  case append data =>
    simp only [exec_append, execAppend]; split_ifs with h
    · exact ⟨_, rfl, quiet _ _ _ (by simp)⟩
    · exact ⟨_, rfl, .append data (by omega)⟩
  case consume n =>
    simp only [exec_consume, execConsume]; split_ifs with h
    · exact ⟨_, rfl, quiet _ _ _ (by simp)⟩
    · exact ⟨_, rfl, .consume n (by omega)⟩
  case flush => exact ⟨_, rfl, .flush⟩
  case sync =>
    obtain ⟨b, h, a, e⟩ := scan_shape s.available s
    simp only [exec_sync, execSync, e]
    cases b
    · exact ⟨_, rfl, .sync h 0 .noStart (.inr rfl)⟩
    · exact ⟨_, rfl, .sync h a .ok (.inl rfl)⟩
  case verify frame => exact ⟨_, execVerify_eq frame s, quiet _ _ _ (by simp)⟩
  case decode frame =>
    simp only [exec_decode, execDecode]; split_ifs
    · exact ⟨_, rfl, quiet _ _ _ (by simp)⟩
    · exact ⟨_, rfl, quiet _ _ _ (by simp)⟩
    · refine ⟨_, rfl, ?_⟩
      rcases decodeWindow_cases frame s with h | h | ⟨f, h⟩ <;> rw [h]
      · exact quiet _ _ _ (by simp)
      · exact quiet _ _ _ (by simp)
      · exact .accept _ f frame (by simp) (by simp) (by simp) (by simp) (by simp)
  case process =>
    obtain ⟨b, h, a, e⟩ := scan_shape s.available s
    simp only [exec_process, execProcess, e, processFrom]
    split_ifs
    · exact ⟨_, rfl, .processRefuses h a _ (by simp)⟩
    · exact ⟨_, rfl, .processRefuses h a _ (by simp)⟩
    · refine ⟨_, rfl, ?_⟩
      rcases decodeWindow_cases (memRead s.cfg.capacity s.mem h FRAME_LEN)
        (dropFront FRAME_LEN { s with head := h, available := a }) with e' | e' | ⟨f, e'⟩ <;> rw [e']
      · exact .processRefuses ((h + FRAME_LEN) % s.cfg.capacity) (a - FRAME_LEN) _ (by simp)
      · exact .processRefuses ((h + FRAME_LEN) % s.cfg.capacity) (a - FRAME_LEN) _ (by simp)
      · exact .processAccepts ((h + FRAME_LEN) % s.cfg.capacity) (a - FRAME_LEN) f _
  case decTime p ck => exact arm _ .time p ck (by simp) (by simp) (by simp) (by simp) (by simp) rfl
  case decAcc p ck => exact arm _ .acc p ck (by simp) (by simp) (by simp) (by simp) (by simp) rfl
  case decGyro p ck => exact arm _ .gyro p ck (by simp) (by simp) (by simp) (by simp) (by simp) rfl
  case decAngle p ck => exact arm _ .angle p ck (by simp) (by simp) (by simp) (by simp) (by simp) rfl
  case decMag p ck => exact arm _ .mag p ck (by simp) (by simp) (by simp) (by simp) (by simp) rfl
  case decQuat p ck => exact arm _ .quat p ck (by simp) (by simp) (by simp) (by simp) (by simp) rfl
  case decUnknown fid p ck =>
    simp only [exec_decUnknown, execDecUnknown]; split_ifs <;> exact ⟨_, rfl, quiet _ _ _ (by simp)⟩
  all_goals exact ⟨_, rfl, quiet _ _ _ (by simp)⟩

/-- The same, of an instruction known to answer `t`. -/
theorem effect_of_exec {i : Instr} {s t : State} (h : exec i s = .next t) : Effect s i t := by
  obtain ⟨u, hu, he⟩ := exec_effect i s
  rw [hu] at h; cases h; exact he

/-! ## What a step can do, said once -/

/-- A step that answers a next state took no input, or took the next one whole: reset, a publisher's read, or a message
that decodes to an instruction, which ran. -/
theorem step_cases {s t : State} (h : step s = .next t) :
    (s.port = [] ∧ t = s) ∨
    (∃ later, s.port = .reset :: later ∧ t = assertReset { s with port := later }) ∨
    (∃ read later, s.port = .publish read :: later ∧ t = publisherRead read { s with port := later }) ∨
    (∃ message later i, s.port = .command message :: later ∧ decodeMessage s.cfg message = .ok i ∧
      exec i { s with port := later } = .next t ∧ Effect { s with port := later } i t) := by
  unfold step at h
  split at h
  · cases h; exact .inl ⟨‹_›, rfl⟩
  · cases h; exact .inr (.inl ⟨_, ‹_›, rfl⟩)
  · cases h; exact .inr (.inr (.inl ⟨_, _, ‹_›, rfl⟩))
  · split at h
    · exact .inr (.inr (.inr ⟨_, _, _, ‹_›, ‹_›, h, effect_of_exec h⟩))
    · cases h

end Sys2Proof.Machine
end

