-- ==== Sys2Proof/Machine/Text.lean ====
section
/-! DEFINITION. The written form of commands and responses (30_encoding.md R86): one command a line, `MNEMONIC operand,
operand`; bytes in hexadecimal with spaces between, `size` in decimal, `mask`, `reg` and `val` in `0x` hexadecimal; a
response after `->`. -/

namespace Sys2Proof.Machine

/-- One hexadecimal digit. -/
def hexDigit (n : Nat) : String := String.singleton ("0123456789ABCDEF".toList.getD n '0')

/-- A byte as two hexadecimal digits (R86). -/
def hexByte (b : Byte) : String := hexDigit (b.toNat / 16) ++ hexDigit (b.toNat % 16)

/-- Bytes, each after a space. -/
def spacedBytes : List Byte → String
  | [] => ""
  | b :: bs => " " ++ hexByte b ++ spacedBytes bs

/-- A payload and the last byte of a frame, each byte after a space. -/
def spacedFrame (p : Payload) (ck : Byte) : String := spacedBytes (p.bytes ++ [ck])

/-- The written form of a command (R86). A FRAME11 row "names the arm of DECODE that a frame selects"; it is written
with the frame bytes that it leaves open, and an illegal op as `ILLEGAL 0x` and one digit without operands: R86 gives no
written form of either (DESIGN CHOICE, log 17). -/
def commandText : Instr → String
  | .append data => "APPEND" ++ spacedBytes data
  | .consume size => "CONSUME " ++ toString size
  | .peek => "PEEK"
  | .sync => "SYNC"
  | .verify frame => "VERIFY" ++ spacedBytes frame
  | .decode frame => "DECODE" ++ spacedBytes frame
  | .process => "PROCESS"
  | .encRead mask => "ENC_READ 0x" ++ hexByte mask
  | .encCfg reg val => "ENC_CFG 0x" ++ hexByte reg ++ ", 0x" ++ hexByte val
  | .flush => "FLUSH"
  | .illegal op => "ILLEGAL 0x" ++ hexDigit op.toNat
  | .decTime p ck => "DEC_TIME" ++ spacedFrame p ck
  | .decAcc p ck => "DEC_ACC" ++ spacedFrame p ck
  | .decGyro p ck => "DEC_GYRO" ++ spacedFrame p ck
  | .decAngle p ck => "DEC_ANGLE" ++ spacedFrame p ck
  | .decMag p ck => "DEC_MAG" ++ spacedFrame p ck
  | .decQuat p ck => "DEC_QUAT" ++ spacedFrame p ck
  | .decUnknown fid p ck => "DEC_UNKNOWN " ++ hexByte fid ++ spacedFrame p ck
  | .readTime => "READ_TIME"
  | .readAcc => "READ_ACC"
  | .readGyro => "READ_GYRO"
  | .readAngle => "READ_ANGLE"
  | .readMag => "READ_MAG"
  | .unlock => "UNLOCK"
  | .setRate r => "SET_RATE 0x" ++ hexByte r
  | .save => "SAVE"

/-- The name of a status (60_exceptions.md R200). -/
def statusText : Status → String
  | .ok => "OK"
  | .failNoSpace => "FAIL_NO_SPACE"
  | .failUnderrun => "FAIL_UNDERRUN"
  | .noStart => "NO_START"
  | .incomplete => "INCOMPLETE"
  | .checksumMismatch => "CHECKSUM_MISMATCH"
  | .unknownRegister => "UNKNOWN_REGISTER"
  | .badLength => "BAD_LENGTH"
  | .badStart => "BAD_START"
  | .illegalOp => "ILLEGAL_OP"

/-- The name of a family (R75), after a space. -/
def familyText : Option Family → String
  | none => ""
  | some .time => " TIME"
  | some .acc => " ACCELERATION"
  | some .gyro => " ANGULAR_VELOCITY"
  | some .angle => " ANGLE"
  | some .mag => " MAGNETIC"
  | some .quat => " QUATERNION"

/-- The written form of a response (R86). -/
def responseText (r : Response) : String :=
  "-> " ++ statusText r.status ++ familyText r.family ++ spacedBytes r.bytes

end Sys2Proof.Machine
end

