-- ==== Sys2Proof/Tests/Slice0.lean ====
section
/-! SUPPORT. The model's own tests. Expected values are the vectors of spec/95_test_vectors.md (S, V, P) and the examples of
the rules, never the model's own answers. Witnesses: for each statement with hypotheses, values that meet them. -/

namespace Sys2Proof.Tests

open Sys2Proof Sys2Proof.Machine

/-! ## Helpers -/

/-- A block of `cap` bytes with `head` at `h` and `bytes` valid. -/
def block (cap h : Nat) (bytes : List Byte) : State :=
  pushBack bytes
    { State.resetWith { Config.default with capacity := cap } with head := h, tail := h }

/-- `(head, tail, available)` and the response after a command. -/
def after (i : Instr) (s : State) : (Nat × Nat × Nat) × Option Response :=
  let t := runCommand i s
  ((t.head, t.tail, t.available), t.response)

/-- The raw values of some fields and the valid bits after a command. -/
def fieldsAfter (xs : List RecordField) (i : Instr) (s : State) : List Int × ValidBits :=
  let t := runCommand i s
  (xs.map t.record.field, t.record.valid)

/-- The state after a step, if it has one. -/
def stepped (s : State) : Option State :=
  match step s with
  | .next t => some t
  | .fault _ => none
  | .refused _ => none

def noBits : ValidBits := ⟨false, false, false, false, false, false⟩

/-! ## Well-formedness: an ill-formed term for each check -/

theorem test_wf_refuses_a_command_op_as_illegal : (Instr.illegal 0x1).wf Config.default = false := by decide
theorem test_wf_refuses_op_ten_as_illegal : (Instr.illegal 0xA).wf Config.default = false := by decide
theorem test_wf_refuses_a_known_family_as_unknown :
    (Instr.decUnknown 0x51 ⟨0, 0, 0, 0, 0, 0, 0, 0⟩ 0).wf Config.default = false := by decide
theorem test_wf_refuses_no_capacity : ¬ ({ Config.default with capacity := 0 } : Config).wf := by decide
theorem test_wf_refuses_two_equal_ids : ¬ ({ Config.default with fidGyro := 0x51 } : Config).wf := by decide
theorem test_wf_default : Config.default.wf := by decide

/-! ## Decoding: a message for every constructor (R70, R72, R75, R82, R87) -/

theorem test_decode_append : decodeMessage Config.default [0x01, 0xA0, 0xA1] = .ok (.append [0xA0, 0xA1]) := by decide
theorem test_decode_consume : decodeMessage Config.default [0x02, 0x08] = .ok (.consume 8) := by decide
theorem test_decode_peek : decodeMessage Config.default [0x03] = .ok .peek := by decide
theorem test_decode_sync : decodeMessage Config.default [0x04] = .ok .sync := by decide
theorem test_decode_verify : decodeMessage Config.default [0x05, 0x55, 0x51, 0x00] = .ok (.verify [0x55, 0x51, 0x00]) := by
  decide
theorem test_decode_decode : decodeMessage Config.default [0x06, 0x55, 0x51, 0x00] = .ok (.decode [0x55, 0x51, 0x00]) := by
  decide
theorem test_decode_process : decodeMessage Config.default [0x07] = .ok .process := by decide
theorem test_decode_encRead : decodeMessage Config.default [0x08, 0xE2] = .ok (.encRead 0xE2) := by decide
theorem test_decode_encCfg : decodeMessage Config.default [0x09, 0x03, 0x06] = .ok (.encCfg 0x03 0x06) := by decide
theorem test_decode_flush : decodeMessage Config.default [0x0A] = .ok .flush := by decide
theorem test_decode_illegal : decodeMessage Config.default [0x0B] = .ok (.illegal 0xB) := by decide
theorem test_decode_decTime : decodeMessage Config.default [0x55, 0x50, 1, 2, 3, 4, 5, 6, 7, 8, 9] =
    .ok (.decTime ⟨1, 2, 3, 4, 5, 6, 7, 8⟩ 9) := by decide
theorem test_decode_decAcc : decodeMessage Config.default [0x55, 0x51, 1, 2, 3, 4, 5, 6, 7, 8, 9] =
    .ok (.decAcc ⟨1, 2, 3, 4, 5, 6, 7, 8⟩ 9) := by decide
theorem test_decode_decGyro : decodeMessage Config.default [0x55, 0x52, 1, 2, 3, 4, 5, 6, 7, 8, 9] =
    .ok (.decGyro ⟨1, 2, 3, 4, 5, 6, 7, 8⟩ 9) := by decide
theorem test_decode_decAngle : decodeMessage Config.default [0x55, 0x53, 1, 2, 3, 4, 5, 6, 7, 8, 9] =
    .ok (.decAngle ⟨1, 2, 3, 4, 5, 6, 7, 8⟩ 9) := by decide
theorem test_decode_decMag : decodeMessage Config.default [0x55, 0x54, 1, 2, 3, 4, 5, 6, 7, 8, 9] =
    .ok (.decMag ⟨1, 2, 3, 4, 5, 6, 7, 8⟩ 9) := by decide
theorem test_decode_decQuat : decodeMessage Config.default [0x55, 0x59, 1, 2, 3, 4, 5, 6, 7, 8, 9] =
    .ok (.decQuat ⟨1, 2, 3, 4, 5, 6, 7, 8⟩ 9) := by decide
theorem test_decode_decUnknown : decodeMessage Config.default [0x55, 0x5A, 1, 2, 3, 4, 5, 6, 7, 8, 9] =
    .ok (.decUnknown 0x5A ⟨1, 2, 3, 4, 5, 6, 7, 8⟩ 9) := by decide
theorem test_words_of_pseudo_instructions :
    [Instr.readTime, .readAcc, .readGyro, .readAngle, .readMag, .unlock, .setRate 0x06, .save].map
      (encode Config.default) =
    [[0x08, 0x01], [0x08, 0x02], [0x08, 0x04], [0x08, 0x08], [0x08, 0x10], [0x09, 0x69, 0x88], [0x09, 0x03, 0x06],
      [0x09, 0x00, 0x00]] := by decide
theorem test_decode_refuses_no_byte : decodeMessage Config.default [] = .reject .emptyMessage := by decide
theorem test_decode_refuses_a_high_nibble : decodeMessage Config.default [0x13] = .reject (.notAnOp 0x13) := by decide
theorem test_decode_refuses_a_mask_too_many :
    decodeMessage Config.default [0x08, 0x01, 0x02] = .reject (.operandBytes 0x8 2) := by decide
theorem test_decode_refuses_ten_byte_frame :
    decodeMessage Config.default [0x55, 0x51, 0, 0, 0, 0, 0, 0, 0, 0] = .reject (.frameBytes 10) := by decide
theorem test_encode_size_bytes : encode Config.default (.consume 0x1234) = [0x02, 0x34, 0x12] := by decide

/-! ## The host's table words -/

theorem test_table_word_append : decodeTableWord 8 0x1 = some (.append []) := by decide
theorem test_table_word_encCfg : decodeTableWord 8 0x9 = some (.encCfg 0 0) := by decide
theorem test_table_word_frame_leftmost_first :
    decodeTableWord 88 0x5550000000000000000000 = some (.decTime ⟨0, 0, 0, 0, 0, 0, 0, 0⟩ 0) := by decide
theorem test_table_word_frame_first_byte_low :
    decodeTableWord 88 0x5155 = some (.decAcc ⟨0, 0, 0, 0, 0, 0, 0, 0⟩ 0) := by decide
theorem test_fetched_word_runs :
    (stepped (State.reset.withFetchWord 8 0x4)).map State.status = some (some .noStart) := by decide

/-! ## The buffer: S1 and V1 -/

theorem test_append_wraps : after (.append [0x0A, 0x0B, 0x0C]) (block 8 6 []) = ((6, 1, 3), some ⟨.ok, [], none⟩) := by
  decide
theorem test_append_does_not_fit : after (.append [0xB0, 0xB1, 0xB2, 0xB3, 0xB4]) (block 8 0 [0xA0, 0xA1, 0xA2, 0xA3, 0xA4]) =
    ((0, 5, 5), some ⟨.failNoSpace, [], none⟩) := by decide
theorem test_consume_wraps : after (.consume 2) (block 8 6 [0x0A, 0x0B, 0x0C]) =
    ((0, 1, 1), some ⟨.ok, [0x0A, 0x0B], none⟩) := by decide
theorem test_consume_underrun : after (.consume 4) (block 8 2 [1, 2, 3]) = ((2, 5, 3), some ⟨.failUnderrun, [], none⟩) := by
  decide
theorem test_peek_capacity_seven : after .peek (block 7 5 [1, 2, 3, 4]) = ((5, 2, 4), some ⟨.ok, [1, 2, 3, 4], none⟩) := by
  decide
theorem test_flush : after .flush (block 8 6 [0x0A, 0x0B, 0x0C]) = ((1, 1, 0), some ⟨.ok, [], none⟩) := by decide
theorem test_append_stores_from_five :
    let t := runCommand (.append [0xB0, 0xB1, 0xB2, 0xB3, 0xB4]) (block 8 2 [0xA2, 0xA3, 0xA4])
    (List.range 8).map (readByte t.mem) = [0xB3, 0xB4, 0xA2, 0xA3, 0xA4, 0xB0, 0xB1, 0xB2] := by decide

/-! ## The synchronizer: V2 -/

theorem test_sync_noise_wraps : after .sync (block 16 14 [0x01, 0x02, 0x55, 0x51, 0x00]) =
    ((0, 3, 3), some ⟨.ok, [], none⟩) := by decide
theorem test_sync_nothing_found : after .sync (block 16 14 [0x01, 0x02, 0x03]) = ((1, 1, 0), some ⟨.noStart, [], none⟩) := by
  decide

/-! ## The checksum: V3 -/

theorem test_verify_wrapped_sum : (after (.verify [0xFF, 0xFF, 0xFF, 0xFF, 0xFF, 0xFF, 0xFF, 0xFF, 0xFF, 0xFF, 0xF6])
    (block 8 0 [])).2 = some ⟨.ok, [], none⟩ := by decide
theorem test_verify_source_literal : (after (.verify [0x55, 0x51, 0, 0x40, 0, 0, 0, 0, 0, 0, 0x91]) (block 8 0 [])).2 =
    some ⟨.checksumMismatch, [], none⟩ := by decide

/-! ## The decoder: V4 -/

theorem test_decode_bad_start : (after (.decode [0x54, 0x51, 0, 0x40, 0, 0, 0, 0, 0, 0, 0xE5]) (block 8 0 [])).2 =
    some ⟨.badStart, [], none⟩ := by decide
theorem test_decode_checksum_before_family : (after (.decode [0x55, 0x5A, 0, 0, 0, 0, 0, 0, 0, 0, 0xB0]) (block 8 0 [])).2 =
    some ⟨.checksumMismatch, [], none⟩ := by decide
theorem test_decTime : fieldsAfter [.year, .month, .day, .hour, .minute, .second, .millisecond]
    (.decTime ⟨0x18, 0x0B, 0x0A, 0x0D, 0x25, 0x3B, 0xE7, 0x03⟩ 0x29) (block 8 0 []) =
    ([24, 11, 10, 13, 37, 59, 999], { noBits with time := true }) := by decide
theorem test_decTime_no_range_check : fieldsAfter [.year, .month, .hour, .millisecond]
    (.decode [0x55, 0x50, 0xFF, 0x00, 0x0D, 0x63, 0x00, 0xFF, 0xFF, 0xFF, 0x11]) (block 8 0 []) =
    ([255, 0, 99, 65535], { noBits with time := true }) := by decide
theorem test_decAcc : fieldsAfter [.accRaw 0, .accRaw 1, .accRaw 2, .tempRaw]
    (.decAcc ⟨0xFF, 0xFF, 0x00, 0x80, 0x00, 0x08, 0xC4, 0x09⟩ 0xF9) (block 8 0 []) =
    ([-1, -32768, 2048, 2500], { noBits with acc := true }) := by decide
theorem test_decGyro : fieldsAfter [.gyroRaw 0, .gyroRaw 1, .gyroRaw 2, .tempRaw]
    (.decGyro ⟨0x00, 0x40, 0x00, 0xC0, 0x01, 0x00, 0x0C, 0xFE⟩ 0xB2) (block 8 0 []) =
    ([16384, -16384, 1, -500], { noBits with gyro := true }) := by decide
theorem test_decAngle : fieldsAfter [.angleRaw 0, .angleRaw 1, .angleRaw 2, .version, .tempRaw]
    (.decAngle ⟨0xFF, 0xFF, 0x01, 0x00, 0xFF, 0x7F, 0xFF, 0xFF⟩ 0x23) (block 8 0 []) =
    ([-1, 1, 32767, 65535, 0], { noBits with angle := true }) := by decide
theorem test_decMag : fieldsAfter [.mag 0, .mag 1, .mag 2, .magTempRaw]
    (.decMag ⟨0x00, 0x00, 0xFF, 0x7F, 0x01, 0x80, 0xFF, 0xFF⟩ 0xA6) (block 8 0 []) =
    ([0, 32767, 32769, -1], { noBits with mag := true }) := by decide
theorem test_decQuat : fieldsAfter [.quatRaw 0, .quatRaw 1, .quatRaw 2, .quatRaw 3]
    (.decQuat ⟨0xFF, 0x7F, 0x00, 0x00, 0x00, 0x40, 0x00, 0xC0⟩ 0x2C) (block 8 0 []) =
    ([32767, 0, 16384, -16384], { noBits with quat := true }) := by decide
theorem test_decUnknown : (after (.decUnknown 0x5A ⟨1, 2, 3, 4, 5, 6, 7, 8⟩ 0xD3) (block 8 0 [])).2 =
    some ⟨.unknownRegister, [], none⟩ := by decide
theorem test_physical_one_g : RecordField.physical (.accRaw 0) 2048 = 98 / 10 := by norm_num [RecordField.physical]
theorem test_physical_gyro : RecordField.physical (.gyroRaw 0) 1 = 6103515625 / 100000000000 := by
  norm_num [RecordField.physical]

/-! ## PROCESS: V6 -/

theorem test_process_decodes : after .process (block 16 0 [0x09, 0x55, 0x51, 0, 0x40, 0, 0, 0, 0, 0, 0, 0xE6]) =
    ((12, 12, 0), some ⟨.ok, [], some .acc⟩) := by decide
theorem test_process_small_capacity : after .process (block 8 0 [0x55, 0x51, 0, 0x40, 0, 0, 0, 0]) =
    ((0, 0, 8), some ⟨.incomplete, [], none⟩) := by decide

/-! ## The encoder: V5 -/

theorem test_encRead : (after (.encRead 0xE2) (block 8 0 [])).2 = some ⟨.ok, [0xFF, 0xAA, 0x02, 0xE2, 0x00], none⟩ := by
  decide
theorem test_encCfg : (after (.encCfg 0xFF 0xFF) (block 8 0 [])).2 = some ⟨.ok, [0xFF, 0xAA, 0xFF, 0xFF, 0x00], none⟩ := by
  decide
theorem test_convenience_forms :
    [Instr.readTime, .readAcc, .readGyro, .readAngle, .readMag, .unlock, .setRate 0x06, .save].map
      (fun i => ((after i (block 8 0 [])).2.map Response.bytes)) =
    [some [0xFF, 0xAA, 0x02, 0x01, 0x00], some [0xFF, 0xAA, 0x02, 0x02, 0x00], some [0xFF, 0xAA, 0x02, 0x04, 0x00],
      some [0xFF, 0xAA, 0x02, 0x08, 0x00], some [0xFF, 0xAA, 0x02, 0x10, 0x00], some [0xFF, 0xAA, 0x69, 0x88, 0x00],
      some [0xFF, 0xAA, 0x03, 0x06, 0x00], some [0xFF, 0xAA, 0x00, 0x00, 0x00]] := by decide

/-! ## Illegal op, reset, publisher, text -/

theorem test_illegal : after (.illegal 0xF) (block 8 6 [1, 2]) = ((6, 0, 2), some ⟨.illegalOp, [], none⟩) := by decide
theorem test_reset_asserted : (stepped { block 8 6 [1, 2] with port := [.reset, .reset] }).map
    (fun t => (t.head, t.tail, t.available, t.cfg.capacity, t.port)) = some (0, 0, 0, 8, [.reset]) := by decide
theorem test_publisher_gets_no_value_of_an_unwritten_group :
    (stepped { block 8 0 [] with port := [.publish (.group .mag)] }).map State.out =
    some (some (.readerFault (.group .mag))) := by decide
theorem test_publisher_reads_written_group :
    (stepped { runCommand (.decMag ⟨0xFF, 0xFF, 0x00, 0x80, 0x01, 0x00, 0x00, 0x00⟩ 0x28) (block 8 0 []) with
      port := [.publish (.group .mag)] }).map State.out =
    some (some (.fields [(.mag 0, 65535), (.mag 1, 32768), (.mag 2, 1), (.magTempRaw, 0)])) := by decide
theorem test_text_append : commandText (.append [0x55, 0x51, 0x00, 0x40]) = "APPEND 55 51 00 40" := by decide
theorem test_text_response : responseText ⟨.ok, [0x01, 0x02], none⟩ = "-> OK 01 02" := by decide

/-! ## Witnesses: values that meet the hypotheses of each statement, clause by clause -/

/-- Eleven bytes that are an ACCELERATION frame (the corrected literal of S2'). -/
def accFrame : List Byte := [0x55, 0x51, 0x00, 0x40, 0, 0, 0, 0, 0, 0, 0xE6]

def payload : Payload := ⟨0x00, 0x40, 0, 0, 0, 0, 0, 0⟩

theorem witness_ResetEmptiesBufferAndClearsValidBits :
    { block 8 6 [1, 2] with port := [.reset, .command [0x03]] }.port = .reset :: [.command [0x03]] := rfl
theorem witness_ResetMeetsInvariant : ({ Config.default with capacity := 1 } : Config).wf := by decide
theorem witness_StepKeepsInvariant :
    let s := { block 8 6 [1, 2] with port := [.command [0x01, 3, 4, 5, 6, 7, 8]] }
    s.Inv ∧ step s = .next (runCommand (.append [3, 4, 5, 6, 7, 8]) { s with port := [] }) := ⟨by decide, rfl⟩
theorem witness_StepNeverChangesParameters :
    let s := { block 8 6 [1, 2] with port := [.reset] }
    step s = .next (assertReset { s with port := [] }) := rfl
theorem witness_StepRunsDecodedInstruction_idle : (block 8 6 [1, 2]).port = [] := by decide
theorem witness_StepRunsDecodedInstruction_command :
    let s := { block 8 6 [1, 2] with port := [.command [0x02, 0x01], .reset] }
    s.port = .command [0x02, 0x01] :: [.reset] ∧ decodeMessage s.cfg [0x02, 0x01] = .ok (.consume 1) := by decide
theorem witness_EncodedInstructionRuns :
    let s := { block 8 6 [1, 2] with port := [.command [0x09, 0x69, 0x88]] }
    s.cfg.wf ∧ Instr.unlock.wf s.cfg = true ∧ s.port = .command (encode s.cfg .unlock) :: [] := by decide
theorem witness_StepStops_none :
    let s := { block 8 0 [] with port := [.publish (.group .time)] }
    step s = .next (publisherRead (.group .time) { s with port := [] }) := rfl
theorem witness_StepStops_message :
    step { block 8 0 [] with port := [.command [0x10]] } = .refused (.malformedMessage (.notAnOp 0x10)) := rfl
theorem witness_AcceptableInputsNeverStopTheBlock :
    let s := { block 8 6 [1, 2] with port := [.command [0x0F], .reset, .publish (.group .mag)] }
    s.Inv ∧ ∀ x ∈ s.port, x.acceptable s.cfg = true := by decide
theorem witness_DecodeOfEncodeIsTheInstruction :
    Config.default.wf ∧ (Instr.decUnknown 0x5A payload 0).wf Config.default = true := by decide
theorem witness_DecodedInstructionIsWellFormed :
    decodeMessage Config.default [0x00, 0x01] = .ok (.illegal 0) := by decide
theorem witness_EncodeOfDecodeIsTheMessage :
    decodeMessage Config.default accFrame = .ok (.decAcc payload 0xE6) ∧
      (∀ n, Instr.decAcc payload 0xE6 ≠ .consume n) ∧ ∀ op, Instr.decAcc payload 0xE6 ≠ .illegal op :=
  ⟨by decide, by simp, by simp⟩
theorem witness_IllegalOpChangesNothing :
    ∀ op ∈ [(0x0 : BitVec 4), 0xB, 0xF],
      (op.toNat = 0 ∨ 11 ≤ op.toNat) ∧
        { block 8 6 [1, 2] with port := [.command (opByte op :: [7])] }.port = .command (opByte op :: [7]) :: [] := by
  decide
theorem witness_AppendStoresAtTailOrFails_fills :
    let s := block 8 6 [1, 2]
    s.Inv ∧ s.available + [3, 4, 5, 6, 7, (8 : Byte)].length ≤ s.cfg.capacity := by decide
theorem witness_AppendStoresAtTailOrFails_one_too_many :
    let s := block 8 6 [1, 2]
    s.Inv ∧ s.cfg.capacity < s.available + [3, 4, 5, 6, 7, 8, (9 : Byte)].length := by decide
theorem witness_ConsumeReturnsOldestOrFails : 2 ≤ (block 8 6 [1, 2]).available ∧ (block 8 6 [1, 2]).available < 3 := by
  decide
theorem witness_FlushEmptiesTheBuffer : (block 8 6 [1, 2, 3]).Inv := by decide
theorem witness_BytesLeaveInTheOrderTheyEntered :
    let s := block 8 6 [1, 2]
    let t₁ := runCommand (.append [3, 4, 5]) s
    let t₂ := runCommand (.append [6, 7, 8]) t₁
    s.Inv ∧ exec (.append [3, 4, 5]) s = .next t₁ ∧ t₁.status = some .ok ∧ exec (.append [6, 7, 8]) t₁ = .next t₂ ∧
      t₂.status = some .ok ∧ exec (.consume t₂.available) t₂ = .next (runCommand (.consume t₂.available) t₂) :=
  ⟨by decide, rfl, by decide, rfl, by decide, rfl⟩
theorem witness_BufferStateHasTheWritersOfItsTable :
    exec .peek (block 8 6 [1, 2]) = .next (runCommand .peek (block 8 6 [1, 2])) ∧ (∀ d, Instr.peek ≠ .append d) ∧
      (∀ n, Instr.peek ≠ .consume n) ∧ Instr.peek ≠ .sync ∧ Instr.peek ≠ .process ∧ Instr.peek ≠ .flush :=
  ⟨rfl, by simp, by simp, by simp, by simp, by simp⟩
theorem witness_SyncAdvancesToFirstStart_at_head :
    let s := block 8 6 [0x55, 0x55]
    s.Inv ∧ 0 < s.available ∧ (∀ k, k < 0 → s.validRegion[k]? ≠ some 0x55) ∧ s.validRegion[0]? = some 0x55 := by decide
theorem witness_SyncAdvancesToFirstStart_last_byte :
    let s := block 8 6 [1, 2, 0x55]
    s.Inv ∧ 2 < s.available ∧ (∀ k, k < 2 → s.validRegion[k]? ≠ some 0x55) ∧ s.validRegion[2]? = some 0x55 := by decide
theorem witness_SyncAdvancesToFirstStart_none :
    let s := block 8 6 [1, 2, 3]
    s.Inv ∧ ∀ b ∈ s.validRegion, b ≠ 0x55 := by decide
theorem witness_SyncDiscardsExactlyTheNoise :
    (block 8 6 [1, 2, 0x55]).Inv ∧ 0x55 ∈ (block 8 6 [1, 2, 0x55]).validRegion := by decide
theorem witness_VerifyComparesTheSum_length : accFrame.tail.length ≠ 11 ∧ (0 :: accFrame).length ≠ 11 := by decide
theorem witness_VerifyComparesTheSum_equal :
    let ten := accFrame.take 10
    ten.length = 10 ∧ accFrame = ten ++ [0xE6] ∧ (ten.map BitVec.toNat).sum % 256 = (0xE6 : Byte).toNat := by decide
theorem witness_VerifyComparesTheSum_differs :
    ((accFrame.take 10).map BitVec.toNat).sum % 256 ≠ (0xE7 : Byte).toNat := by decide
theorem witness_SingleChangedByteIsDetected :
    let s := block 8 0 []
    exec (.verify accFrame) s = .next (runCommand (.verify accFrame) s) ∧
      (runCommand (.verify accFrame) s).status = some .ok ∧ 10 < 11 ∧ accFrame[10]? ≠ some 0xE7 :=
  ⟨rfl, by decide, by decide, by decide⟩
theorem witness_ExactlyOneChecksumVerifies :
    (accFrame.take 10).length = 10 ∧ exec (.verify (accFrame.take 10 ++ [0xE6])) (block 8 0 []) =
      .next (runCommand (.verify accFrame) (block 8 0 [])) := ⟨by decide, rfl⟩
theorem witness_PairsAreLittleEndianTwosComplement :
    (0xFF : Byte).toNat + 256 * (0x7F : Byte).toNat < 32768 ∧ 32768 ≤ (0x00 : Byte).toNat + 256 * (0x80 : Byte).toNat := by
  decide
/-- The hypothesis of the six family frames and of `FrameRowDoesWhatDecodeOfItsFrameDoes`. -/
theorem witness_frame_statements : (block 8 0 []).cfg.wf := by decide
theorem witness_UnknownFamilyChangesNothing : (0x5A : Byte) ∉ (block 8 0 []).cfg.familyIds := by decide
theorem witness_BadChecksumChangesNothing :
    (0xE7 : Byte) ≠ goodChecksum 0x51 payload ∧ (0xE7 : Byte) ≠ goodChecksum (familyId (block 8 0 []).cfg .acc) payload := by
  decide
theorem witness_DecodeReportsTheFirstFailingCheck_length : accFrame.tail.length ≠ 11 ∧ (0x55 :: accFrame).length ≠ 11 := by
  decide
theorem witness_DecodeReportsTheFirstFailingCheck_start :
    let frame : List Byte := 0x54 :: accFrame.tail
    frame = 0x54 :: accFrame.tail ∧ accFrame.tail.length = 10 ∧ (0x54 : Byte) ≠ 0x55 := by decide
theorem witness_DecodeReportsTheFirstFailingCheck_checksum :
    let ten := accFrame.tail.take 9
    ten.length = 9 ∧ ((0x55 :: ten).map BitVec.toNat).sum % 256 ≠ (0xE7 : Byte).toNat := by decide
theorem witness_DecodeReportsTheFirstFailingCheck_family :
    let eight : List Byte := [1, 2, 3, 4, 5, 6, 7, 8]
    eight.length = 8 ∧ ((0x55 :: 0x5A :: eight).map BitVec.toNat).sum % 256 = (0xD3 : Byte).toNat ∧
      (0x5A : Byte) ∉ (block 8 0 []).cfg.familyIds := by decide
theorem witness_AcceptedFrameWritesOnlyItsFields :
    let t := runCommand (.decAcc payload 0xE6) (block 8 0 [])
    exec (.decAcc payload 0xE6) (block 8 0 []) = .next t ∧ t.out = reply .ok [] (some .acc) := ⟨rfl, by decide⟩
theorem witness_RecordChangesOnlyOnAcceptedFrame :
    let t := runCommand (.decAcc payload 0xE6) (block 8 0 [])
    exec (.decAcc payload 0xE6) (block 8 0 []) = .next t ∧ t.record ≠ (block 8 0 []).record := ⟨rfl, by decide⟩
theorem witness_FailureOfTheFirstKindChangesNothing :
    let s := block 2 0 [1, 2]
    let t := runCommand (.append [3]) s
    exec (.append [3]) s = .next t ∧ t.status = some .failNoSpace ∧
      Status.failNoSpace ∈ [Status.failNoSpace, .failUnderrun, .badLength, .badStart, .illegalOp] := ⟨rfl, by decide, by decide⟩
theorem witness_FailureOfTheFirstKindChangesNothing_checksum :
    let s := block 2 0 [1, 2]
    let t := runCommand (.decAcc payload 0xE7) s
    exec (.decAcc payload 0xE7) s = .next t ∧ t.status = some .checksumMismatch ∧ Instr.decAcc payload 0xE7 ≠ .process :=
  ⟨rfl, by decide, by decide⟩
theorem witness_CommandsNeverClearAValidBit :
    let s := runCommand (.decAcc payload 0xE6) (block 8 0 [])
    exec .flush s = .next (runCommand .flush s) ∧ s.record.valid.get .acc = true := ⟨rfl, by decide⟩
theorem witness_OnlyTwoFamiliesWriteTheTemperature :
    let i := Instr.decGyro ⟨0x00, 0x40, 0x00, 0xC0, 0x01, 0x00, 0x0C, 0xFE⟩ 0xB2
    let t := runCommand i (block 8 0 [])
    exec i (block 8 0 []) = .next t ∧ t.record.tempRaw ≠ (block 8 0 []).record.tempRaw := ⟨rfl, by decide⟩
theorem witness_ProcessMakesOneAttemptAtOneFrame_no_start :
    let s := block 16 14 [1, 2, 3]
    s.Inv ∧ s.validRegion = [1, 2, 3] ++ [] ∧ ∀ b ∈ [(1 : Byte), 2, 3], b ≠ 0x55 := by decide
theorem witness_ProcessMakesOneAttemptAtOneFrame_ten_bytes :
    let s := block 16 14 (1 :: accFrame.take 10)
    s.Inv ∧ s.validRegion = [1] ++ accFrame.take 10 ∧ accFrame.take 10 = 0x55 :: (accFrame.take 10).tail ∧
      (accFrame.take 10).length < 11 := by decide
theorem witness_ProcessMakesOneAttemptAtOneFrame_eleven_bytes :
    let s := block 16 14 (1 :: accFrame)
    s.Inv ∧ s.validRegion = [1] ++ accFrame ∧ accFrame = (0x55 :: accFrame.tail) ++ [] ∧ accFrame.tail.length = 10 := by decide
theorem witness_ProcessDecodesAGoodFrame :
    let s := block 16 14 (1 :: accFrame ++ [9])
    s.Inv ∧ (∀ b ∈ [(1 : Byte)], b ≠ 0x55) ∧ s.validRegion =
      [1] ++ payload.frame (familyId s.cfg .acc) (goodChecksum (familyId s.cfg .acc) payload) ++ [9] := by decide
theorem witness_ProcessProgresses_frame :
    let s := block 16 14 (1 :: accFrame)
    s.Inv ∧ exec .process s = .next (runCommand .process s) ∧ (runCommand .process s).status = some .ok :=
  ⟨by decide, rfl, by decide⟩
theorem witness_ProcessProgresses_no_start :
    let s := block 16 14 [1]
    s.Inv ∧ exec .process s = .next (runCommand .process s) ∧ (runCommand .process s).status = some .noStart :=
  ⟨by decide, rfl, by decide⟩
theorem witness_ProcessProgresses_incomplete :
    let s := block 16 14 (1 :: accFrame.take 10)
    s.Inv ∧ exec .process s = .next (runCommand .process s) ∧ (runCommand .process s).status = some .incomplete :=
  ⟨by decide, rfl, by decide⟩
theorem witness_RepeatedProcessStops : (block 16 14 (1 :: accFrame)).Inv := by decide
theorem witness_SmallBufferNeverYieldsAFrame :
    let s := block 10 3 (accFrame.take 10)
    s.Inv ∧ s.cfg.capacity < 11 := by decide
theorem witness_FragmentationDoesNotMatter :
    let s := block 16 14 []
    let fs := [Feed.chunk (1 :: accFrame)]
    let gs := [Feed.chunk [1], .process, .chunk (accFrame.take 4), .process, .chunk (accFrame.drop 4)]
    s.Inv ∧ streamOf fs = streamOf gs ∧ fits fs s = true ∧ fits gs s = true := by decide
theorem witness_PublisherReadsOnlyValidGroups :
    let s := { runCommand (.decAcc payload 0xE6) (block 8 0 []) with port := [.publish (.group .acc)] }
    let u := { block 8 0 [] with port := [.publish (.group .acc)] }
    (s.port = .publish (.group .acc) :: [] ∧ s.record.valid.get .acc = true) ∧
      u.port = .publish (.group .acc) :: [] ∧ u.record.valid.get .acc = false := by decide
theorem witness_PublisherReadsFieldsAndValidBits_defined :
    let port := [Input.publish (.field .tempRaw)]
    let s := { runCommand (.decAcc payload 0xE6) (block 8 0 []) with port := port }
    let t := { runCommand (.decGyro payload 0xE7) (block 8 0 []) with port := port }
    (s.record.valid.acc = true ∧ s.record.valid.gyro = false ∧ s.record.defined .tempRaw = true) ∧
      (t.record.valid.acc = false ∧ t.record.valid.gyro = true ∧ t.record.defined .tempRaw = true) ∧
      s.port = .publish (.field .tempRaw) :: [] ∧ t.port = s.port := by decide
theorem witness_PublisherReadsFieldsAndValidBits_undefined :
    let s := { runCommand (.decMag payload 0xE9) (block 8 0 []) with port := [.publish (.field .tempRaw)] }
    s.record.valid.mag = true ∧ s.record.defined .tempRaw = false ∧ s.port = .publish (.field .tempRaw) :: [] := by decide
theorem witness_PublisherReadsFieldsAndValidBits_valid_bits :
    { block 8 0 [] with port := [.publish .validBits] }.port = .publish .validBits :: [] := rfl
theorem witness_BlockRefinesAQueue :
    (block 8 6 [1, 2, 3]).Inv ∧ (Instr.consume 2).wf (block 8 6 [1, 2, 3]).cfg = true := by decide
theorem witness_HiddenBytesNeverMatter :
    let s := block 8 6 [1]
    let t := { s with mem := [(0, 9), (6, 1), (7, 5)] }
    s.Inv ∧ t.Inv ∧ SameButHidden s t ∧ s ≠ t := by unfold SameButHidden; decide
theorem witness_BytesAreConserved : (block 8 6 [1, 2, 3]).Inv := by decide

end Sys2Proof.Tests
end

/-! The Circular Byte Buffer's statements (41_circular_byte_buffer.md). -/

namespace Sys2Proof.Machine

/-- APPEND of bytes that fit (R100). -/
theorem exec_append_of_fits {s : State} {data : List Byte} (h : s.available + data.length ≤ s.cfg.capacity) :
    exec (.append data) s = .next (answer .ok [] none (pushBack data s)) := by
  rw [exec_append, execAppend, if_neg h.not_gt]

/-- APPEND of bytes that do not fit (R100). -/
theorem exec_append_of_not_fits {s : State} {data : List Byte} (h : s.cfg.capacity < s.available + data.length) :
    exec (.append data) s = .next (raise .failNoSpace s) := by
  rw [exec_append, execAppend, if_pos h]

/-- Settles O18: APPEND is `pushBack` if the bytes fit, so the bytes of `mem` are those of MemWrite, which writes no index
twice because `data` is at most CAPACITY long. -/
theorem appendStoresAtTailOrFails : Obligations.AppendStoresAtTailOrFails := by
  intro s data ⟨_, hmem, _⟩
  refine ⟨fun hfits => ⟨_, exec_append_of_fits hfits, ?stored, ?others, rfl, rfl, rfl, rfl, rfl, rfl, rfl⟩,
    exec_append_of_not_fits⟩
  case stored =>
    intro k b hb
    obtain ⟨hk, rfl⟩ := List.getElem?_eq_some_iff.mp hb
    exact readByte_memWrite data hmem (by omega) hk
  case others =>
    intro a ha
    exact readByte_memWrite_of_ne data hmem ha

end Sys2Proof.Machine

/-! The Frame Synchronizer's statements (42_frame_synchronizer.md). -/

namespace Sys2Proof.Machine

theorem State.Inv.head_lt {s : State} (h : s.Inv) : s.head < s.cfg.capacity := by
  obtain ⟨_, _, _, hhead, _⟩ := h
  exact hhead

/-- Where there is a start marker, what remains begins with it (R121). -/
theorem exists_fromStart_eq_cons {q : List Byte} (h : START ∈ q) : ∃ r, fromStart q = START :: r := by
  have hne : fromStart q ≠ [] := fun hnil => by simpa using List.dropWhile_eq_nil_iff.mp hnil START h
  obtain ⟨b, r, hq⟩ := List.exists_cons_of_ne_nil hne
  exact ⟨r, fromStart_head hq ▸ hq⟩

theorem takeWhile_append_fromStart (q : List Byte) : q.takeWhile (· != START) ++ fromStart q = q :=
  List.takeWhile_append_dropWhile

/-- The valid region once the noise is gone (R121). -/
theorem validRegion_dropFront_noiseLength (s : State) :
    (dropFront (noiseLength s.validRegion) s).validRegion = fromStart s.validRegion := by
  rw [validRegion_dropFront (noiseLength_validRegion_le s), drop_noiseLength]

/-- Settles O25: SYNC drops the valid region's longest prefix without a start marker, and what remains begins with the
marker, which by R22 is the byte at `head`. -/
theorem syncDiscardsExactlyTheNoise : Obligations.SyncDiscardsExactlyTheNoise := by
  intro s hinv hmem
  obtain ⟨r, hr⟩ := exists_fromStart_eq_cons hmem
  have hexec := execSync_eq hinv.head_lt
  rw [if_neg (by simp [hr])] at hexec
  have hregion := validRegion_dropFront_noiseLength s
  have hhead := (inv_dropFront (noiseLength_validRegion_le s) hinv).head_lt
  refine ⟨_, s.validRegion.takeWhile (· != START), hexec, rfl, ?marker, ?split, ?noise⟩
  case marker => exact readByte_head hhead (hregion.trans hr)
  case split => rw [answer_validRegion, hregion, takeWhile_append_fromStart]
  case noise =>
    intro b hb
    exact bne_iff_ne.mp (List.mem_takeWhile_imp (p := (· != START)) hb)

end Sys2Proof.Machine

/-! The Register Decoder's statements (44_register_decoder.md). -/

namespace Sys2Proof.Machine

/-- The last byte `goodChecksum` adds up passes the checksum test (R131). -/
@[simp] theorem checksumGood_frame (p : Payload) (fid : Byte) :
    checksumGood (p.frame fid (goodChecksum fid p)) = true := by
  simp [checksumGood, csum_frame]

/-- A frame built of its parts passes DECODE's checks on length and start (R140). -/
theorem execDecode_frame (p : Payload) (fid ck : Byte) (s : State) :
    execDecode (p.frame fid ck) s = .next (decodeWindow (p.frame fid ck) s) := by
  simp [execDecode, FRAME_LEN]

/-- DECODE of a good frame runs the arm of the family its id selects (R140). -/
theorem execDecode_goodFrame {s : State} {fid : Byte} {f : Family} (hf : familyOf s.cfg fid = some f) (p : Payload) :
    execDecode (p.frame fid (goodChecksum fid p)) s = .next (decodeArm f (p.frame fid (goodChecksum fid p)) s) := by
  simp [execDecode_frame, decodeWindow, hf]

/-- DECODE of a good frame whose id selects no family (R149). -/
theorem execDecode_goodFrame_unknown {s : State} {fid : Byte} (hf : familyOf s.cfg fid = none) (p : Payload) :
    execDecode (p.frame fid (goodChecksum fid p)) s = .next (raise .unknownRegister s) := by
  simp [execDecode_frame, decodeWindow, hf]

theorem exec_rowOf_some (fid : Byte) (p : Payload) (ck : Byte) (f : Family) (s : State) :
    exec (rowOf fid p ck (some f)) s = execArm f p ck s := by
  cases f <;> rfl

/-- A good frame of family `f`, as DECODE's operand or as the row's own message, runs the arm of `f` (R88, R140). -/
theorem exec_goodFrame {s : State} (hwf : s.cfg.wf) (f : Family) (p : Payload) :
    let fid := familyId s.cfg f
    let ck := goodChecksum fid p
    ∀ i ∈ [Instr.decode (p.frame fid ck), rowOf fid p ck (some f)],
      exec i s = .next (decodeArm f (p.frame fid ck) s) := by
  intro fid ck
  have hdecode : execDecode (p.frame fid ck) s = .next (decodeArm f (p.frame fid ck) s) :=
    execDecode_goodFrame (familyOf_familyId hwf.2 f) p
  have hrow : exec (rowOf fid p ck (some f)) s = .next (decodeArm f (p.frame fid ck) s) := by
    rw [exec_rowOf_some, execArm_eq hwf, hdecode]
  simp [hdecode, hrow]

/-- The ACCELERATION arm, in the bytes of the payload (R144). -/
theorem decodeArm_acc_frame (p : Payload) (fid ck : Byte) (s : State) :
    decodeArm .acc (p.frame fid ck) s =
      { s with
        record :=
          { s.record with
            acc := ⟨u16le p.b2 p.b3, u16le p.b4 p.b5, u16le p.b6 p.b7⟩
            tempRaw := u16le p.b8 p.b9
            valid := { s.record.valid with acc := true } }
        out := reply .ok [] (some .acc) } := rfl

/-- The ANGULAR_VELOCITY arm, in the bytes of the payload (R145). -/
theorem decodeArm_gyro_frame (p : Payload) (fid ck : Byte) (s : State) :
    decodeArm .gyro (p.frame fid ck) s =
      { s with
        record :=
          { s.record with
            gyro := ⟨u16le p.b2 p.b3, u16le p.b4 p.b5, u16le p.b6 p.b7⟩
            tempRaw := u16le p.b8 p.b9
            valid := { s.record.valid with gyro := true } }
        out := reply .ok [] (some .gyro) } := rfl

/-- Settles O32: both instructions run the ACCELERATION arm, and the four fields are read as signed. -/
theorem accelerationFrameWritesAxesAndTemperature : Obligations.AccelerationFrameWritesAxesAndTemperature := by
  intro s p hwf ck t
  refine ⟨?arm, rfl⟩
  case arm =>
    have ht : decodeArm .acc (p.frame FID_ACC ck) s = t := decodeArm_acc_frame p FID_ACC ck s
    exact ht ▸ exec_goodFrame hwf .acc p

/-- Settles O33: both instructions run the ANGULAR_VELOCITY arm, and the four fields are read as signed. -/
theorem gyroFrameWritesAxesAndTemperature : Obligations.GyroFrameWritesAxesAndTemperature := by
  intro s p hwf ck t
  refine ⟨?arm, rfl⟩
  case arm =>
    have ht : decodeArm .gyro (p.frame s.cfg.fidGyro ck) s = t := decodeArm_gyro_frame p s.cfg.fidGyro ck s
    exact ht ▸ exec_goodFrame hwf .gyro p

/-- Settles O37: the id selects no family, so DECODE, and with it DEC_UNKNOWN, ends in `raise`, which writes only `out`. -/
theorem unknownFamilyChangesNothing : Obligations.UnknownFamilyChangesNothing := by
  intro s p fid hfid ck
  have hnone : familyOf s.cfg fid = none := familyOf_eq_none.mpr hfid
  have hdecode : execDecode (p.frame fid ck) s = .next { s with out := reply .unknownRegister [] none } :=
    execDecode_goodFrame_unknown hnone p
  simp [execDecUnknown_eq hnone, hdecode]

end Sys2Proof.Machine

/-! The Request Encoder's statements (45_request_encoder.md). -/

namespace Sys2Proof.Machine

/-- A request's answer, byte by byte, and the whole of what `sendRequest` writes (R73, R180). -/
theorem sendRequest_eq (reg val : Byte) (s : State) :
    sendRequest reg val s = { s with out := reply .ok [0xFF, 0xAA, reg, val, 0x00] none } := rfl

/-- Settles O54: each read form is `sendRequest` to `REG_RSW` of its own group's flag. -/
theorem readFormsPassASingleFlag : Obligations.ReadFormsPassASingleFlag := by
  intro s
  refine ⟨?time, ?acc, ?gyro, ?angle, ?mag⟩
  case time => rw [exec_readTime, execReadTime, sendRequest_eq, G_TIME]
  case acc => rw [exec_readAcc, execReadAcc, sendRequest_eq, G_ACC]
  case gyro => rw [exec_readGyro, execReadGyro, sendRequest_eq, G_GYRO]
  case angle => rw [exec_readAngle, execReadAngle, sendRequest_eq, G_ANGLE]
  case mag => rw [exec_readMag, execReadMag, sendRequest_eq, G_MAG]

end Sys2Proof.Machine

/-! The block is a queue of bytes beside a record: the closed form of every command from a state of the invariant. -/

namespace Sys2Proof.Machine

/-! ## What a command takes from the buffer and puts into it -/

/-- The bytes an instruction puts into the buffer: those of an APPEND that succeeds (R100). -/
def bytesIn : Instr → State → List Byte
  | .append data, s => if s.cfg.capacity < s.available + data.length then [] else data
  | _, _ => []

theorem length_bytesIn (i : Instr) (s : State) : (bytesIn i s).length = bytesAdded i s := by
  cases i with
  | append data => simp only [bytesIn, bytesAdded]; split_ifs <;> rfl
  | _ => rfl

theorem bytesRemoved_le (i : Instr) (s : State) : bytesRemoved i s ≤ s.available := by
  have hnoise := noiseLength_validRegion_le s
  have hrest := fromStart_length s.validRegion
  rw [validRegion_length] at hrest
  cases i with
  | consume size => simp only [bytesRemoved]; split_ifs <;> omega
  | sync => exact hnoise
  | process => simp only [bytesRemoved]; split_ifs <;> omega
  | flush => exact le_rfl
  | _ => exact Nat.zero_le _

/-- What an instruction puts in fits beside what it leaves. -/
theorem bytesIn_fits {s : State} (i : Instr) (h : s.available ≤ s.cfg.capacity) :
    s.available - bytesRemoved i s + (bytesIn i s).length ≤ s.cfg.capacity := by
  cases i with
  | append data => simp only [bytesIn, bytesRemoved]; split_ifs <;> simp <;> omega
  | _ => exact (Nat.sub_le _ _).trans h

@[simp] theorem pushBack_nil {s : State} (h : s.tail < s.cfg.capacity) : pushBack [] s = s := by
  simp [pushBack, memWrite, Nat.mod_eq_of_lt h]

theorem State.Inv.tail_lt {s : State} (h : s.Inv) : s.tail < s.cfg.capacity := by
  obtain ⟨_, _, _, _, htail, _⟩ := h
  exact htail

theorem State.Inv.available_le {s : State} (h : s.Inv) : s.available ≤ s.cfg.capacity := by
  obtain ⟨_, _, _, _, _, havailable, _⟩ := h
  exact havailable

theorem State.Inv.tail_eq {s : State} (h : s.Inv) : s.tail = (s.head + s.available) % s.cfg.capacity := by
  obtain ⟨_, _, _, _, _, _, htail⟩ := h
  exact htail

/-- The buffer after an instruction: some of the oldest bytes leave, some new ones join. -/
def moveBytes (i : Instr) (s : State) : State := pushBack (bytesIn i s) (dropFront (bytesRemoved i s) s)

theorem moveBytes_eq_dropFront {i : Instr} {s : State} (h : s.Inv) (hin : bytesIn i s = []) :
    moveBytes i s = dropFront (bytesRemoved i s) s := by
  rw [moveBytes, hin]
  exact pushBack_nil h.tail_lt

theorem moveBytes_eq_pushBack {i : Instr} {s : State} (h : s.Inv) (hout : bytesRemoved i s = 0) :
    moveBytes i s = pushBack (bytesIn i s) s := by
  rw [moveBytes, hout, dropFront_zero h.head_lt]

theorem moveBytes_eq_self {i : Instr} {s : State} (h : s.Inv) (hin : bytesIn i s = []) (hout : bytesRemoved i s = 0) :
    moveBytes i s = s := by
  rw [moveBytes_eq_dropFront h hin, hout, dropFront_zero h.head_lt]

theorem inv_moveBytes {s : State} (i : Instr) (h : s.Inv) : (moveBytes i s).Inv :=
  inv_pushBack (bytesIn_fits i h.available_le) (inv_dropFront (bytesRemoved_le i s) h)

theorem validRegion_moveBytes {s : State} (i : Instr) (h : s.Inv) :
    (moveBytes i s).validRegion = s.validRegion.drop (bytesRemoved i s) ++ bytesIn i s := by
  rw [moveBytes, validRegion_pushBack (bytesIn_fits i h.available_le) (inv_dropFront (bytesRemoved_le i s) h),
    validRegion_dropFront (bytesRemoved_le i s)]

/-! ## PROCESS in the words of the valid region -/

/-- PROCESS once the synchronizer has dropped the noise (R190 step 1). -/
theorem execProcess_fromStart {s : State} (h : s.head < s.cfg.capacity) :
    ∃ u, u = dropFront (noiseLength s.validRegion) s ∧ u.validRegion = fromStart s.validRegion ∧
      u.available = (fromStart s.validRegion).length ∧ execProcess s = .next (processFrom u) :=
  have hregion := validRegion_dropFront_noiseLength s
  ⟨_, rfl, hregion, by rw [← hregion, validRegion_length], execProcess_eq h⟩

/-- PROCESS of a valid region without a start marker (R190 step 2). -/
theorem execProcess_of_noStart {s : State} (h : s.head < s.cfg.capacity) (hq : fromStart s.validRegion = []) :
    execProcess s = .next (raise .noStart (dropFront (noiseLength s.validRegion) s)) := by
  obtain ⟨u, rfl, _, havailable, hexec⟩ := execProcess_fromStart h
  rw [hexec, processFrom, if_pos (by rw [havailable, hq]; rfl)]

/-- PROCESS of a valid region whose start marker has fewer than 11 bytes from it on (R190 step 3). -/
theorem execProcess_of_incomplete {s : State} (h : s.head < s.cfg.capacity) (hq : fromStart s.validRegion ≠ [])
    (hshort : (fromStart s.validRegion).length < 11) :
    execProcess s = .next (raise .incomplete (dropFront (noiseLength s.validRegion) s)) := by
  obtain ⟨u, rfl, _, havailable, hexec⟩ := execProcess_fromStart h
  rw [hexec, processFrom, if_neg (by rwa [havailable, List.length_eq_zero_iff]), if_pos (by rwa [havailable])]

/-- PROCESS of a valid region with a whole window: its 11 bytes leave and are judged (R190 steps 4 and 5). -/
theorem execProcess_of_window {s : State} (h : s.head < s.cfg.capacity)
    (hlong : 11 ≤ (fromStart s.validRegion).length) :
    execProcess s = .next
      (decodeWindow ((fromStart s.validRegion).take 11) (dropFront (noiseLength s.validRegion + 11) s)) := by
  obtain ⟨u, hu, hregion, havailable, hexec⟩ := execProcess_fromStart h
  rw [hexec, processFrom, if_neg (by omega), if_neg (by rw [FRAME_LEN]; omega), FRAME_LEN,
    memRead_head_take (by omega), hregion, hu, dropFront_dropFront]

/-- PROCESS on a queue without a start marker. -/
theorem Fifo.process_of_noStart {cfg : Config} {f : Fifo} (hq : fromStart f.queue = []) :
    f.process cfg = (⟨[], f.record⟩, ⟨.noStart, [], none⟩) := by
  simp [Fifo.process, hq]

/-- PROCESS on a queue whose start marker has fewer than 11 bytes from it on. -/
theorem Fifo.process_of_incomplete {cfg : Config} {f : Fifo} (hq : fromStart f.queue ≠ [])
    (hshort : (fromStart f.queue).length < 11) :
    f.process cfg = (⟨fromStart f.queue, f.record⟩, ⟨.incomplete, [], none⟩) := by
  simp [Fifo.process, hq, hshort]

/-- PROCESS on a queue with a whole window. -/
theorem Fifo.process_of_window {cfg : Config} {f : Fifo} (hlong : 11 ≤ (fromStart f.queue).length) :
    f.process cfg =
      (⟨(fromStart f.queue).drop 11, (frameVerdict cfg ((fromStart f.queue).take 11) f.record).1⟩,
        (frameVerdict cfg ((fromStart f.queue).take 11) f.record).2) := by
  have hq : fromStart f.queue ≠ [] := fun hnil => by simp [hnil] at hlong
  simp [Fifo.process, hq, hlong.not_gt]

/-- The three things PROCESS can meet in the bytes that stand from the first start marker on (R190). -/
theorem window_cases (q : List Byte) : q = [] ∨ (q ≠ [] ∧ q.length < 11) ∨ 11 ≤ q.length := by
  rcases Nat.lt_or_ge q.length 11 with hshort | hlong
  · by_cases hq : q = []
    · exact .inl hq
    · exact .inr (.inl ⟨hq, hshort⟩)
  · exact .inr (.inr hlong)

/-! ## The closed form of a command -/

/-- The state after instruction `i`: the buffer as `moveBytes` says, record and response as the queue says. -/
def afterCommand (i : Instr) (s : State) : State :=
  { moveBytes i s with
    record := (Fifo.exec s.cfg i s.fifo).1.record
    out := some (.response (Fifo.exec s.cfg i s.fifo).2) }

/-- The closed form of an instruction that moves no byte. -/
theorem exec_eq_afterCommand_of_still {i : Instr} {s : State} (h : s.Inv) (hin : bytesIn i s = [])
    (hout : bytesRemoved i s = 0)
    (hexec : exec i s = .next
      { s with
        record := (Fifo.exec s.cfg i s.fifo).1.record
        out := some (.response (Fifo.exec s.cfg i s.fifo).2) }) :
    exec i s = .next (afterCommand i s) := by
  rw [hexec, afterCommand, moveBytes_eq_self h hin hout]

/-- The closed form of an instruction that does what DECODE of a frame does. -/
theorem exec_eq_afterCommand_of_decode {i : Instr} {s : State} {frame : List Byte} (h : s.Inv) (hin : bytesIn i s = [])
    (hout : bytesRemoved i s = 0) (hexec : exec i s = execDecode frame s)
    (hfifo : Fifo.exec s.cfg i s.fifo = s.fifo.judge (decodeVerdict s.cfg frame s.record)) :
    exec i s = .next (afterCommand i s) := by
  refine exec_eq_afterCommand_of_still h hin hout ?_
  rw [hexec, execDecode_eq, hfifo]
  rfl

theorem execAppend_eq_afterCommand {s : State} (h : s.Inv) (data : List Byte) :
    execAppend data s = .next (afterCommand (.append data) s) := by
  rw [execAppend, afterCommand, moveBytes_eq_pushBack h rfl]
  simp only [bytesIn, Fifo.exec, State.fifo, validRegion_length]
  split_ifs
  · rw [pushBack_nil h.tail_lt]; rfl
  · rfl

theorem execConsume_eq_afterCommand {s : State} (h : s.Inv) (size : Nat) :
    execConsume size s = .next (afterCommand (.consume size) s) := by
  rw [execConsume, afterCommand, moveBytes_eq_dropFront h rfl]
  simp only [bytesRemoved, Fifo.exec, State.fifo, validRegion_length]
  split_ifs
  · rw [dropFront_zero h.head_lt]; rfl
  · rw [memRead_head_take (by omega)]; rfl

theorem execSync_eq_afterCommand {s : State} (h : s.Inv) : execSync s = .next (afterCommand .sync s) := by
  rw [execSync_eq h.head_lt, afterCommand, moveBytes_eq_dropFront h rfl]
  rfl

theorem bytesRemoved_process_of_short {s : State} (hshort : (fromStart s.validRegion).length < 11) :
    bytesRemoved .process s = noiseLength s.validRegion := by
  simp [bytesRemoved, hshort]

theorem bytesRemoved_process_of_window {s : State} (hlong : 11 ≤ (fromStart s.validRegion).length) :
    bytesRemoved .process s = noiseLength s.validRegion + 11 := by
  simp [bytesRemoved, hlong.not_gt]

theorem execProcess_eq_afterCommand {s : State} (h : s.Inv) : execProcess s = .next (afterCommand .process s) := by
  rw [afterCommand, moveBytes_eq_dropFront h rfl, Fifo.exec]
  rcases window_cases (fromStart s.validRegion) with hq | ⟨hq, hshort⟩ | hlong
  · rw [execProcess_of_noStart h.head_lt hq, Fifo.process_of_noStart hq, bytesRemoved_process_of_short (by simp [hq])]
    rfl
  · rw [execProcess_of_incomplete h.head_lt hq hshort, Fifo.process_of_incomplete hq hshort,
      bytesRemoved_process_of_short hshort]
    rfl
  · rw [execProcess_of_window h.head_lt hlong, Fifo.process_of_window hlong, bytesRemoved_process_of_window hlong,
      decodeWindow_eq]
    rfl

/-- The closed form of every command: from a state of the invariant, `exec` does to the buffer what `moveBytes` does, and
to the record and the response what the queue says. -/
theorem exec_eq_afterCommand {s : State} {i : Instr} (h : s.Inv) (hi : i.wf s.cfg = true) :
    exec i s = .next (afterCommand i s) := by
  have harm (f : Family) (p : Payload) (ck : Byte) := execArm_eq h.1 f p ck
  cases i with
  | append data => exact execAppend_eq_afterCommand h data
  | consume size => exact execConsume_eq_afterCommand h size
  | sync => exact execSync_eq_afterCommand h
  | process => exact execProcess_eq_afterCommand h
  | flush => rw [afterCommand, moveBytes_eq_dropFront h rfl]; rfl
  | verify frame => exact exec_eq_afterCommand_of_still h rfl rfl (execVerify_eq frame s)
  | decode frame => exact exec_eq_afterCommand_of_decode h rfl rfl rfl rfl
  | decTime p ck => exact exec_eq_afterCommand_of_decode h rfl rfl (harm .time p ck) rfl
  | decAcc p ck => exact exec_eq_afterCommand_of_decode h rfl rfl (harm .acc p ck) rfl
  | decGyro p ck => exact exec_eq_afterCommand_of_decode h rfl rfl (harm .gyro p ck) rfl
  | decAngle p ck => exact exec_eq_afterCommand_of_decode h rfl rfl (harm .angle p ck) rfl
  | decMag p ck => exact exec_eq_afterCommand_of_decode h rfl rfl (harm .mag p ck) rfl
  | decQuat p ck => exact exec_eq_afterCommand_of_decode h rfl rfl (harm .quat p ck) rfl
  | decUnknown fid p ck =>
    have hunknown := execDecUnknown_eq (familyOf_of_not_contains hi) p ck
    exact exec_eq_afterCommand_of_decode h rfl rfl hunknown rfl
  | _ => exact exec_eq_afterCommand_of_still h rfl rfl rfl

/-- A term that is no row of the table, an `illegal` of a command's op or a `decUnknown` of a family's id, only answers,
and the same in every state (log 16). -/
theorem exec_of_not_wf {cfg : Config} {i : Instr} (hi : i.wf cfg ≠ true) :
    ∃ st, ∀ s, exec i s = .next (raise st s) ∧ bytesIn i s = [] ∧ bytesRemoved i s = 0 := by
  cases i with
  | illegal op => exact ⟨.illegalOp, fun s => ⟨rfl, rfl, rfl⟩⟩
  | decUnknown fid p ck =>
    by_cases hck : checksumGood (p.frame fid ck) = true
    · exact ⟨.unknownRegister, fun s => ⟨by rw [exec_decUnknown, execDecUnknown, if_pos hck], rfl, rfl⟩⟩
    · exact ⟨.checksumMismatch, fun s => ⟨by rw [exec_decUnknown, execDecUnknown, if_neg hck], rfl, rfl⟩⟩
  | _ => exact absurd rfl hi

/-- Every instruction, a row of the table or not, moves the bytes of `moveBytes` and writes besides only record and
response. -/
theorem exec_moves {s : State} (i : Instr) (h : s.Inv) :
    ∃ r o, exec i s = .next { moveBytes i s with record := r, out := o } := by
  by_cases hi : i.wf s.cfg = true
  · exact ⟨_, _, exec_eq_afterCommand h hi⟩
  · obtain ⟨st, hst⟩ := exec_of_not_wf hi
    obtain ⟨hexec, hin, hout⟩ := hst s
    refine ⟨s.record, (raise st s).out, ?_⟩
    rw [hexec, moveBytes_eq_self h hin hout]
    rfl

/-! ## The queue -/

/-- The queue loses its oldest bytes and gains the new ones, as many as the ledger counts (R65, R101). -/
theorem queue_exec (s : State) (i : Instr) :
    (Fifo.exec s.cfg i s.fifo).1.queue = s.validRegion.drop (bytesRemoved i s) ++ bytesIn i s := by
  have hstill : s.validRegion = s.validRegion.drop 0 ++ [] := by simp
  cases i with
  | append data =>
    simp only [Fifo.exec, State.fifo, bytesIn, bytesRemoved, validRegion_length]
    split_ifs <;> simp
  | consume size =>
    simp only [Fifo.exec, State.fifo, bytesIn, bytesRemoved, validRegion_length]
    split_ifs <;> simp
  | sync => simp [Fifo.exec, State.fifo, bytesIn, bytesRemoved, drop_noiseLength]
  | process =>
    simp only [Fifo.exec, bytesIn, List.append_nil]
    rcases window_cases (fromStart s.validRegion) with hq | ⟨hq, hshort⟩ | hlong
    · rw [Fifo.process_of_noStart hq, bytesRemoved_process_of_short (by simp [hq]), drop_noiseLength, hq]
    · rw [Fifo.process_of_incomplete hq hshort, bytesRemoved_process_of_short hshort, drop_noiseLength]
      rfl
    · rw [Fifo.process_of_window hlong, bytesRemoved_process_of_window hlong, ← List.drop_drop, drop_noiseLength]
      rfl
  | flush => simp [Fifo.exec, bytesIn, bytesRemoved]
  | _ => exact hstill

theorem fifo_afterCommand {s : State} (i : Instr) (h : s.Inv) :
    (afterCommand i s).fifo = (Fifo.exec s.cfg i s.fifo).1 := by
  have hregion : (afterCommand i s).validRegion = (Fifo.exec s.cfg i s.fifo).1.queue :=
    (validRegion_moveBytes i h).trans (queue_exec s i).symm
  rw [State.fifo, hregion]
  rfl

/-- Settles O58: `exec` in closed form is `moveBytes` with the queue's record and response, and the region `moveBytes`
leaves is the queue's. -/
theorem blockRefinesAQueue : Obligations.BlockRefinesAQueue := by
  intro i s hinv hi
  exact ⟨afterCommand i s, exec_eq_afterCommand hinv hi, inv_moveBytes i hinv, fifo_afterCommand i hinv, rfl, rfl, rfl⟩

/-! ## The invariant along steps and runs -/

theorem exec_keeps_inv {i : Instr} {s t : State} (h : s.Inv) (he : exec i s = .next t) : t.Inv := by
  obtain ⟨r, o, hmoves⟩ := exec_moves i h
  rw [hmoves] at he
  cases he
  exact inv_moveBytes i h

/-- Settles O3: a step holds the state, resets it, answers the publisher or runs an instruction; what the port holds is
no part of the invariant. -/
theorem stepKeepsInvariant : Obligations.StepKeepsInvariant := by
  intro s t hinv hstep
  rcases step_cases hstep with ⟨_, rfl⟩ | ⟨later, _, rfl⟩ | ⟨read, later, _, rfl⟩ | ⟨_, later, i, _, _, hexec, _⟩
  · exact hinv
  · exact inv_resetWith hinv.1
  · exact hinv
  · exact exec_keeps_inv (s := { s with port := later }) hinv hexec

theorem runCommand_of_exec {i : Instr} {s t : State} (h : exec i s = .next t) : runCommand i s = t := by
  rw [runCommand, h]

theorem runCommand_moves {s : State} (i : Instr) (h : s.Inv) :
    ∃ r o, runCommand i s = { moveBytes i s with record := r, out := o } := by
  obtain ⟨r, o, hexec⟩ := exec_moves i h
  exact ⟨r, o, runCommand_of_exec hexec⟩

theorem inv_runCommand {s : State} (i : Instr) (h : s.Inv) : (runCommand i s).Inv := by
  obtain ⟨t, hexec, _⟩ := exec_effect i s
  exact runCommand_of_exec hexec ▸ exec_keeps_inv h hexec

/-! ## Conservation of bytes -/

/-- One command's entry in the ledger (R65). -/
theorem available_runCommand {s : State} (i : Instr) (h : s.Inv) :
    (runCommand i s).available + bytesRemoved i s = s.available + bytesAdded i s := by
  obtain ⟨r, o, hrun⟩ := runCommand_moves i h
  have havailable : (moveBytes i s).available = s.available - bytesRemoved i s + bytesAdded i s := by
    rw [moveBytes, pushBack_available, dropFront_available, length_bytesIn]
  have hle := bytesRemoved_le i s
  simp only [hrun, havailable]
  omega

/-- Settles O60, by induction on the commands: the ledger grows by one command's entry at a time. -/
theorem bytesAreConserved : Obligations.BytesAreConserved := by
  intro s is hinv
  induction is generalizing s with
  | nil => rfl
  | cons i is ih =>
    have hfirst := available_runCommand i hinv
    have hrest := ih (runCommand i s) (inv_runCommand i hinv)
    simp only [runCommands, ledger]
    omega

/-! ## Hidden bytes -/

theorem sameButHidden_raise {s t : State} (st : Status) (h : SameButHidden s t) :
    SameButHidden (raise st s) (raise st t) := by
  obtain ⟨hcfg, hhead, htail, havailable, hrecord, hport, _, hregion⟩ := h
  exact ⟨hcfg, hhead, htail, havailable, hrecord, hport, rfl, hregion⟩

theorem bytesIn_congr {s t : State} (i : Instr) (h : SameButHidden s t) : bytesIn i s = bytesIn i t := by
  obtain ⟨hcfg, _, _, havailable, _⟩ := h
  cases i with
  | append data => rw [bytesIn, bytesIn, hcfg, havailable]
  | _ => rfl

theorem bytesRemoved_congr {s t : State} (i : Instr) (h : SameButHidden s t) : bytesRemoved i s = bytesRemoved i t := by
  obtain ⟨_, _, _, havailable, _, _, _, hregion⟩ := h
  cases i with
  | consume size => rw [bytesRemoved, bytesRemoved, havailable]
  | sync => rw [bytesRemoved, bytesRemoved, hregion]
  | process => rw [bytesRemoved, bytesRemoved, hregion]
  | flush => exact havailable
  | _ => rfl

/-- The closed form of a command reads of `mem` the valid region only. -/
theorem sameButHidden_afterCommand {s t : State} (i : Instr) (hs : s.Inv) (ht : t.Inv) (h : SameButHidden s t) :
    SameButHidden (afterCommand i s) (afterCommand i t) := by
  have hin := bytesIn_congr i h
  have hout := bytesRemoved_congr i h
  obtain ⟨hcfg, hhead, htail, havailable, hrecord, hport, _, hregion⟩ := h
  have hfifo : s.fifo = t.fifo := by rw [State.fifo, State.fifo, hregion, hrecord]
  have hregion' : (moveBytes i s).validRegion = (moveBytes i t).validRegion := by
    rw [validRegion_moveBytes i hs, validRegion_moveBytes i ht, hin, hout, hregion]
  refine ⟨hcfg, ?head, ?tail, ?available, ?record, hport, ?out, hregion'⟩ <;>
    simp only [afterCommand, moveBytes, pushBack_head, pushBack_tail, pushBack_available, dropFront_head,
      dropFront_tail, dropFront_available, dropFront_cfg, hcfg, hhead, htail, havailable, hin, hout, hfifo]

/-- Settles O59: a row of the table acts by its closed form; any other term answers the same in every state. -/
theorem hiddenBytesNeverMatter : Obligations.HiddenBytesNeverMatter := by
  intro i s t hs ht h
  by_cases hi : i.wf s.cfg = true
  · have hi' : i.wf t.cfg = true := h.1 ▸ hi
    exact ⟨_, _, exec_eq_afterCommand hs hi, exec_eq_afterCommand ht hi', sameButHidden_afterCommand i hs ht h⟩
  · obtain ⟨st, hst⟩ := exec_of_not_wf hi
    obtain ⟨hs', _⟩ := hst s
    obtain ⟨ht', _⟩ := hst t
    exact ⟨_, _, hs', ht', sameButHidden_raise st h⟩

end Sys2Proof.Machine

/-! PROCESS (46_pipeline.md). -/

namespace Sys2Proof.Machine

/-! ## Noise in front of a queue -/

section Noise
variable {noise : List Byte} (hnoise : ∀ b ∈ noise, b ≠ START) (q : List Byte)
include hnoise

theorem fromStart_append_of_noise : fromStart (noise ++ q) = fromStart q :=
  List.dropWhile_append_of_pos fun b hb => bne_iff_ne.mpr (hnoise b hb)

theorem noiseLength_append_of_noise : noiseLength (noise ++ q) = noise.length + noiseLength q := by
  have hle := fromStart_length_le q
  rw [noiseLength, noiseLength, fromStart_append_of_noise hnoise, List.length_append]
  omega
end Noise

theorem fromStart_start (q : List Byte) : fromStart (START :: q) = START :: q := by simp [fromStart]

theorem noiseLength_start (q : List Byte) : noiseLength (START :: q) = 0 := by
  rw [noiseLength, fromStart_start, Nat.sub_self]

/-- What joins behind a start marker stays behind it; what joins behind noise is synchronized on its own. -/
theorem fromStart_append (q x : List Byte) :
    fromStart (q ++ x) = if fromStart q = [] then fromStart x else fromStart q ++ x := by
  simp [fromStart, List.dropWhile_append]

/-! ## One PROCESS -/

@[simp] theorem answer_status (st : Status) (bs : List Byte) (fam : Option Family) (s : State) :
    (answer st bs fam s).status = some st := rfl

@[simp] theorem raise_status (st : Status) (s : State) : (raise st s).status = some st := rfl

/-- DECODE of an operand that passes the checks on length and start (R140). -/
theorem execDecode_of_window {frame : List Byte} (hlen : frame.length = 11) (hstart : frameByte frame 0 = START)
    (s : State) : execDecode frame s = .next (decodeWindow frame s) := by
  simp [execDecode, FRAME_LEN, hlen, hstart]

/-- The registers once `n` of the oldest bytes are gone, in the length of what remains. -/
theorem dropFront_eq_of_validRegion {s : State} {gone rest : List Byte} (h : s.validRegion = gone ++ rest) :
    dropFront gone.length s =
      { s with head := (s.head + gone.length) % s.cfg.capacity, available := rest.length } := by
  have hlen := validRegion_length s
  rw [h, List.length_append] at hlen
  simp only [dropFront, State.mk.injEq, and_true, true_and]
  omega

/-- When all that is valid leaves, `head` comes to `tail` (R23). -/
theorem dropFront_available_eq {s : State} (h : s.Inv) :
    dropFront s.available s = { s with head := s.tail, available := 0 } := by
  rw [dropFront, ← h.tail_eq, Nat.sub_self]

/-- Settles O47: the noise leaves; then the three cases of PROCESS are those of `rest`. -/
theorem processMakesOneAttemptAtOneFrame : Obligations.ProcessMakesOneAttemptAtOneFrame := by
  intro s noise rest hinv hregion hnoise
  have hfrom : fromStart s.validRegion = fromStart rest := hregion ▸ fromStart_append_of_noise hnoise rest
  have hlen : noiseLength s.validRegion = noise.length + noiseLength rest :=
    hregion ▸ noiseLength_append_of_noise hnoise rest
  refine ⟨?noStart, ?incomplete, ?window⟩
  case noStart =>
    rintro rfl
    have hall : noiseLength s.validRegion = s.available := by
      rw [hlen, ← validRegion_length s, hregion, List.append_nil]; rfl
    rw [exec_process, execProcess_of_noStart hinv.head_lt hfrom, hall, dropFront_available_eq hinv]
    rfl
  case incomplete =>
    rintro more rfl hshort
    have hstart : fromStart s.validRegion = START :: more := hfrom.trans (fromStart_start more)
    have hnoiseLength : noiseLength (0x55 :: more) = 0 := noiseLength_start more
    rw [exec_process, execProcess_of_incomplete hinv.head_lt (by simp [hstart]) (by rwa [hstart]), hlen,
      hnoiseLength, Nat.add_zero, dropFront_eq_of_validRegion hregion]
    rfl
  case window =>
    rintro window more rfl hwindow
    have hstart : fromStart s.validRegion = (START :: window) ++ more := hfrom.trans (fromStart_start _)
    have hnoiseLength : noiseLength ((0x55 :: window) ++ more) = 0 := noiseLength_start _
    have htake : (fromStart s.validRegion).take 11 = START :: window := by
      rw [hstart, List.take_left' (by simp [hwindow])]
    have hdrop := dropFront_eq_of_validRegion (hregion.trans (List.append_assoc _ _ _).symm)
    rw [List.length_append, List.length_cons, hwindow, ← Nat.add_assoc] at hdrop
    rw [exec_process, execProcess_of_window hinv.head_lt (by simp [hstart, hwindow]), htake, hlen, hnoiseLength,
      Nat.add_zero, hdrop, exec_decode, execDecode_of_window (by simp [hwindow]) rfl]
    rfl

/-- Settles O48: the window PROCESS judges is the frame, and DECODE of a good frame runs its family's arm. -/
theorem processDecodesAGoodFrame : Obligations.ProcessDecodesAGoodFrame := by
  intro s noise more f p hinv hnoise hregion
  have hfamily : familyOf s.cfg (familyId s.cfg f) = some f := familyOf_familyId hinv.1.2 f
  generalize familyId s.cfg f = fid at hfamily hregion ⊢
  obtain ⟨_, _, hwindow⟩ :=
    processMakesOneAttemptAtOneFrame s noise _ hinv (hregion.trans (List.append_assoc _ _ _)) hnoise
  rw [hwindow (fid :: (p.bytes ++ [goodChecksum fid p])) more rfl rfl]
  exact execDecode_goodFrame
    (s := { s with head := (s.head + noise.length + 11) % s.cfg.capacity, available := more.length }) hfamily p

/-- A window is judged with one of three statuses (R190 steps 4 and 5). -/
theorem status_decodeWindow (frame : List Byte) (s : State) :
    (decodeWindow frame s).status ∈ [some .ok, some .checksumMismatch, some Status.unknownRegister] := by
  rcases decodeWindow_cases frame s with h | h | ⟨f, h⟩ <;> simp [h, decodeArm]

theorem available_decodeWindow (frame : List Byte) (s : State) : (decodeWindow frame s).available = s.available := by
  rw [decodeWindow_eq]

/-- A PROCESS that answers INCOMPLETE has put the start marker at the front, so another finds no noise (R192). -/
theorem execProcess_incomplete_again {s : State} (h : s.Inv) (hq : fromStart s.validRegion ≠ [])
    (hshort : (fromStart s.validRegion).length < 11) :
    let t := raise .incomplete (dropFront (noiseLength s.validRegion) s)
    execProcess t = .next t := by
  intro t
  have ht : t.Inv := inv_dropFront (noiseLength_validRegion_le s) h
  have hregion : t.validRegion = fromStart s.validRegion := validRegion_dropFront_noiseLength s
  have hfrom : fromStart t.validRegion = fromStart s.validRegion := by rw [hregion, fromStart_idem]
  have hnoise : noiseLength t.validRegion = 0 := by rw [noiseLength, hfrom, hregion, Nat.sub_self]
  rw [execProcess_of_incomplete ht.head_lt (by rwa [hfrom]) (by rwa [hfrom]), hnoise, dropFront_zero ht.head_lt]
  rfl

/-- Settles O49: the three cases of PROCESS, each with its own statuses. -/
theorem processProgresses : Obligations.ProcessProgresses := by
  intro s t hinv hexec
  have hlen := fromStart_length s.validRegion
  rw [validRegion_length] at hlen
  rw [exec_process] at hexec
  rcases window_cases (fromStart s.validRegion) with hq | ⟨hq, hshort⟩ | hlong
  · obtain rfl : _ = t := Host.Outcome.next.inj ((execProcess_of_noStart hinv.head_lt hq).symm.trans hexec)
    have hempty : s.available - noiseLength s.validRegion = 0 := by rw [← hlen, hq]; rfl
    simp [hempty]
  · obtain rfl : _ = t := Host.Outcome.next.inj ((execProcess_of_incomplete hinv.head_lt hq hshort).symm.trans hexec)
    obtain ⟨b, r, hbr⟩ := List.exists_cons_of_ne_nil hq
    have hpos : 0 < (fromStart s.validRegion).length := List.length_pos_of_ne_nil hq
    have hhead := (inv_dropFront (noiseLength_validRegion_le s) hinv).head_lt
    refine ⟨by simp, by simp, fun _ => ⟨?pos, ?short, ?marker, execProcess_incomplete_again hinv hq hshort⟩⟩
    case pos => rwa [raise_available, dropFront_available, ← hlen]
    case short => rwa [raise_available, dropFront_available, ← hlen]
    case marker =>
      exact readByte_head hhead ((validRegion_dropFront_noiseLength s).trans (fromStart_head hbr ▸ hbr))
  · obtain rfl : _ = t := Host.Outcome.next.inj ((execProcess_of_window hinv.head_lt hlong).symm.trans hexec)
    have hstatus := status_decodeWindow ((fromStart s.validRegion).take 11)
      (dropFront (noiseLength s.validRegion + 11) s)
    refine ⟨fun _ => ?progress, fun h => by simp [h] at hstatus, fun h => by simp [h] at hstatus⟩
    case progress =>
      rw [available_decodeWindow, dropFront_available]
      omega

/-- Settles O51: the bytes from the first start marker on are at most CAPACITY, so never a whole window. -/
theorem smallBufferNeverYieldsAFrame : Obligations.SmallBufferNeverYieldsAFrame := by
  intro s hinv hcap
  have hlen := fromStart_length_le s.validRegion
  have havailable := hinv.available_le
  rw [validRegion_length] at hlen
  rcases window_cases (fromStart s.validRegion) with hq | ⟨hq, hshort⟩ | hlong
  · exact ⟨_, execProcess_of_noStart hinv.head_lt hq, .inl rfl⟩
  · exact ⟨_, execProcess_of_incomplete hinv.head_lt hq hshort, .inr rfl⟩
  · omega

/-! ## PROCESS on the queue, repeated -/

theorem settled_frameVerdict (cfg : Config) (frame : List Byte) (r : Record) :
    (frameVerdict cfg frame r).2.settled = true := by
  unfold frameVerdict
  split_ifs
  · rfl
  · split <;> rfl

/-- A response of a frame comes with a whole window, which leaves (R192). -/
theorem Fifo.window_of_settled {cfg : Config} {f : Fifo} (h : (f.process cfg).2.settled = true) :
    11 ≤ (fromStart f.queue).length := by
  rcases window_cases (fromStart f.queue) with hq | ⟨hq, hshort⟩ | hlong
  · simp [Fifo.process_of_noStart hq, Response.settled] at h
  · simp [Fifo.process_of_incomplete hq hshort, Response.settled] at h
  · exact hlong

theorem Fifo.length_process_of_settled {cfg : Config} {f : Fifo} (h : (f.process cfg).2.settled = true) :
    (f.process cfg).1.queue.length + 11 ≤ f.queue.length := by
  have hlong := Fifo.window_of_settled h
  have hle := fromStart_length_le f.queue
  rw [Fifo.process_of_window hlong, List.length_drop]
  omega

/-- The queue with more bytes behind it. -/
def Fifo.feed (f : Fifo) (more : List Byte) : Fifo := ⟨f.queue ++ more, f.record⟩

/-- A frame is judged the same whatever stands behind it. -/
theorem Fifo.process_feed_of_settled {cfg : Config} {f : Fifo} (more : List Byte)
    (h : (f.process cfg).2.settled = true) :
    (f.feed more).process cfg = ((f.process cfg).1.feed more, (f.process cfg).2) := by
  have hlong := Fifo.window_of_settled h
  have hne : fromStart f.queue ≠ [] := fun hnil => by simp [hnil] at hlong
  have hfrom : fromStart (f.feed more).queue = fromStart f.queue ++ more := by
    rw [Fifo.feed, fromStart_append, if_neg hne]
  have hlong' : 11 ≤ (fromStart (f.feed more).queue).length := by
    rw [hfrom, List.length_append]
    omega
  rw [Fifo.process_of_window hlong', Fifo.process_of_window hlong, hfrom, List.take_append_of_le_length hlong,
    List.drop_append_of_le_length hlong]
  rfl

/-- PROCESS looks at the queue from its first start marker on. -/
theorem Fifo.process_congr {cfg : Config} {f g : Fifo} (hq : fromStart f.queue = fromStart g.queue)
    (hr : f.record = g.record) : f.process cfg = g.process cfg := by
  rw [Fifo.process, Fifo.process, hq, hr]

/-- A PROCESS that meets no whole window only drops noise, which a later one would drop as well. -/
theorem Fifo.process_feed_of_unsettled {cfg : Config} {f : Fifo} (more : List Byte)
    (h : (f.process cfg).2.settled = false) :
    ((f.process cfg).1.feed more).process cfg = (f.feed more).process cfg := by
  rcases window_cases (fromStart f.queue) with hq | ⟨hq, hshort⟩ | hlong
  · rw [Fifo.process_of_noStart hq]
    refine Fifo.process_congr ?_ rfl
    simp [Fifo.feed, fromStart_append, hq]
  · rw [Fifo.process_of_incomplete hq hshort]
    refine Fifo.process_congr ?_ rfl
    simp [Fifo.feed, fromStart_append, fromStart_idem]
  · rw [Fifo.process_of_window hlong, settled_frameVerdict] at h
    cases h

/-- PROCESS on the queue, repeated until NO_START or INCOMPLETE: the responses before that, and the queue then. -/
inductive Fifo.Drains (cfg : Config) : Fifo → List Response → Fifo → Prop where
  | stop {f : Fifo} (h : (f.process cfg).2.settled = false) : Drains cfg f [] (f.process cfg).1
  | frame {f g : Fifo} {rs : List Response} (h : (f.process cfg).2.settled = true)
      (rest : Drains cfg (f.process cfg).1 rs g) : Drains cfg f ((f.process cfg).2 :: rs) g

/-- What a queue drains to is determined. -/
theorem Fifo.Drains.unique {cfg : Config} {f g g' : Fifo} {rs rs' : List Response} (h : Drains cfg f rs g)
    (h' : Drains cfg f rs' g') : rs = rs' ∧ g = g' := by
  induction h generalizing rs' g' with
  | stop hstop =>
    cases h' with
    | stop _ => exact ⟨rfl, rfl⟩
    | frame hframe _ => simp [hstop] at hframe
  | frame hframe _ ih =>
    cases h' with
    | stop hstop => simp [hframe] at hstop
    | frame _ rest' =>
      obtain ⟨rfl, rfl⟩ := ih rest'
      exact ⟨rfl, rfl⟩

theorem Fifo.Drains.congr {cfg : Config} {f f' g : Fifo} {rs : List Response} (hf : f.process cfg = f'.process cfg)
    (h : Drains cfg f rs g) : Drains cfg f' rs g := by
  cases h with
  | stop hstop => exact hf ▸ .stop (hf ▸ hstop)
  | frame hframe rest => exact hf ▸ .frame (hf ▸ hframe) (hf ▸ rest)

/-- A PROCESS issued while the stream is still coming takes nothing away from what the whole stream drains to. -/
theorem Fifo.Drains.of_process {cfg : Config} {f g : Fifo} {rs : List Response} {more : List Byte}
    (h : Drains cfg ((f.process cfg).1.feed more) rs g) :
    Drains cfg (f.feed more) ([(f.process cfg).2].filter Response.settled ++ rs) g := by
  cases hsettled : (f.process cfg).2.settled with
  | true =>
    have hp := Fifo.process_feed_of_settled more hsettled
    have hdrains : Drains cfg (f.feed more) (((f.feed more).process cfg).2 :: rs) g :=
      .frame (by rwa [hp]) (by rwa [hp])
    simpa [hp, hsettled] using hdrains
  | false => simpa [hsettled] using h.congr (Fifo.process_feed_of_unsettled more hsettled)

/-! ## PROCESS repeated on the block -/

theorem runCommand_eq_afterCommand {i : Instr} {s : State} (h : s.Inv) (hi : i.wf s.cfg = true) :
    runCommand i s = afterCommand i s := runCommand_of_exec (exec_eq_afterCommand h hi)

/-- A command on the block seen as a queue. -/
theorem fifo_runCommand {i : Instr} {s : State} (h : s.Inv) (hi : i.wf s.cfg = true) :
    (runCommand i s).fifo = (Fifo.exec s.cfg i s.fifo).1 := by
  rw [runCommand_eq_afterCommand h hi, fifo_afterCommand i h]

theorem cfg_runCommand {s : State} (i : Instr) (h : s.Inv) : (runCommand i s).cfg = s.cfg := by
  obtain ⟨r, o, hrun⟩ := runCommand_moves i h
  rw [hrun]
  rfl

theorem settledResponse_process {s : State} (h : s.Inv) :
    settledResponse (runCommand .process s) = [(s.fifo.process s.cfg).2].filter Response.settled := by
  rw [runCommand_eq_afterCommand h rfl]
  rfl

theorem length_queue_fifo (s : State) : s.fifo.queue.length = s.available := validRegion_length s

/-- `drain` with calls enough (R192) drains the queue. -/
theorem drains_drain {s : State} {n : Nat} (h : s.Inv) (hn : s.available / 11 < n) :
    Fifo.Drains s.cfg s.fifo (drain n s).1 (drain n s).2.1.fifo ∧ (drain n s).2.2 = true := by
  induction n generalizing s with
  | zero => omega
  | succ n ih =>
    have hresponse := settledResponse_process h
    have hfifo : (runCommand .process s).fifo = (s.fifo.process s.cfg).1 := fifo_runCommand h rfl
    rw [drain]
    cases hsettled : (s.fifo.process s.cfg).2.settled with
    | false =>
      have hnone : settledResponse (runCommand .process s) = [] := by simp [hresponse, hsettled]
      simp only [hnone, if_true, hfifo, and_true]
      exact .stop hsettled
    | true =>
      have hsome : settledResponse (runCommand .process s) = [(s.fifo.process s.cfg).2] := by
        simp [hresponse, hsettled]
      have hshrinks := Fifo.length_process_of_settled hsettled
      rw [← hfifo, length_queue_fifo, length_queue_fifo] at hshrinks
      obtain ⟨hdrains, hstopped⟩ := ih (inv_runCommand .process h) (by omega)
      rw [cfg_runCommand .process h, hfifo] at hdrains
      simp only [hsome, List.cons_ne_nil, if_false, hstopped, and_true]
      exact .frame hsettled hdrains

/-- Settles O50: every call before the last removes 11 bytes. -/
theorem repeatedProcessStops : Obligations.RepeatedProcessStops := by
  intro s hinv
  obtain ⟨_, hstopped⟩ := drains_drain hinv (Nat.lt_succ_self (s.available / 11))
  exact hstopped

/-! ## A stream cut in pieces -/

theorem finish_process (fs : List Feed) (s : State) :
    finish (.process :: fs) s =
      (settledResponse (runCommand .process s) ++ (finish fs (runCommand .process s)).1,
        (finish fs (runCommand .process s)).2) := by
  simp [finish, runFeed, List.append_assoc]

theorem fifo_append {s : State} {data : List Byte} (h : s.Inv) (hfits : s.available + data.length ≤ s.cfg.capacity) :
    (runCommand (.append data) s).fifo = s.fifo.feed data := by
  rw [fifo_runCommand h rfl, Fifo.exec, length_queue_fifo, if_neg hfits.not_gt]
  rfl

theorem Fifo.feed_feed (f : Fifo) (a b : List Byte) : (f.feed a).feed b = f.feed (a ++ b) := by
  simp [Fifo.feed, List.append_assoc]

/-- A feed that fits, followed by PROCESS until NO_START or INCOMPLETE, does what draining the whole stream does. -/
theorem drains_finish {fs : List Feed} {s : State} (h : s.Inv) (hfits : fits fs s = true) :
    Fifo.Drains s.cfg (s.fifo.feed (streamOf fs)) (finish fs s).1 (finish fs s).2.fifo := by
  induction fs generalizing s with
  | nil =>
    obtain ⟨hdrains, _⟩ := drains_drain h (Nat.lt_succ_self (s.available / 11))
    have hnil : s.fifo.feed (streamOf []) = s.fifo := by simp [Fifo.feed, streamOf]
    rw [hnil]
    exact hdrains
  | cons c fs ih =>
    cases c with
    | chunk data =>
      rw [fits, Bool.and_eq_true, decide_eq_true_eq] at hfits
      obtain ⟨hdata, hrest⟩ := hfits
      have hdrains := ih (inv_runCommand (.append data) h) hrest
      rw [cfg_runCommand (.append data) h, fifo_append h hdata, Fifo.feed_feed] at hdrains
      exact hdrains
    | process =>
      have hdrains := ih (inv_runCommand .process h) hfits
      have hfifo : (runCommand .process s).fifo = (s.fifo.process s.cfg).1 := fifo_runCommand h rfl
      rw [cfg_runCommand .process h, hfifo] at hdrains
      rw [finish_process, settledResponse_process h, streamOf]
      exact hdrains.of_process

/-- Settles O52: both feeds do what draining the one stream does, and a queue drains to one end only. -/
theorem fragmentationDoesNotMatter : Obligations.FragmentationDoesNotMatter := by
  intro s fs gs hinv hstream hfs hgs
  have hdrains := drains_finish hinv hfs
  rw [hstream] at hdrains
  obtain ⟨hresponses, hfifo⟩ := hdrains.unique (drains_finish hinv hgs)
  exact ⟨hresponses, congrArg Fifo.record hfifo, congrArg Fifo.queue hfifo⟩

end Sys2Proof.Machine

/-! The decoder and encoder of messages (30_encoding.md), and the steps of the block (00_scope.md, 60_exceptions.md). -/

namespace Sys2Proof

open Sys2Proof.Laws

/-! ## Decoding and encoding -/

/-- Settles O10, instruction by instruction. -/
theorem decodeOfEncodeIsTheInstruction : Obligations.DecodeOfEncodeIsTheInstruction := by
  intro cfg i hcfg hi
  have of (h : RoundTrip.Statement i) : decodeMessage cfg (encode cfg i) = .ok (i.expand cfg) := h cfg hcfg hi
  cases i with
  | append data => exact of (RoundTrip.append data)
  | consume size => exact of (RoundTrip.consume size)
  | peek => exact of RoundTrip.peek
  | sync => exact of RoundTrip.sync
  | verify frame => exact of (RoundTrip.verify frame)
  | decode frame => exact of (RoundTrip.decode frame)
  | process => exact of RoundTrip.process
  | encRead mask => exact of (RoundTrip.encRead mask)
  | encCfg reg val => exact of (RoundTrip.encCfg reg val)
  | flush => exact of RoundTrip.flush
  | illegal op => exact of (RoundTrip.illegal op)
  | decTime p ck => exact of (RoundTrip.decTime p ck)
  | decAcc p ck => exact of (RoundTrip.decAcc p ck)
  | decGyro p ck => exact of (RoundTrip.decGyro p ck)
  | decAngle p ck => exact of (RoundTrip.decAngle p ck)
  | decMag p ck => exact of (RoundTrip.decMag p ck)
  | decQuat p ck => exact of (RoundTrip.decQuat p ck)
  | decUnknown fid p ck => exact of (RoundTrip.decUnknown fid p ck)
  | readTime => exact of RoundTrip.readTime
  | readAcc => exact of RoundTrip.readAcc
  | readGyro => exact of RoundTrip.readGyro
  | readAngle => exact of RoundTrip.readAngle
  | readMag => exact of RoundTrip.readMag
  | unlock => exact of RoundTrip.unlock
  | setRate r => exact of (RoundTrip.setRate r)
  | save => exact of RoundTrip.save

/-- A byte below 16 is the first byte of its own op. -/
theorem opByte_setWidth {b : Byte} (h : b.toNat < 16) : opByte (b.setWidth 4) = b := by
  apply BitVec.eq_of_toNat_eq
  simp only [opByte, BitVec.toNat_setWidth]
  omega

/-- What a command's message can decode to, with the operands it then has. -/
inductive CommandForm : BitVec 4 → List Byte → Instr → Prop where
  | append (data : List Byte) : CommandForm OP_APPEND data (.append data)
  | consume (size : List Byte) : CommandForm OP_CONSUME size (.consume (natOfBytes size))
  | peek : CommandForm OP_PEEK [] .peek
  | sync : CommandForm OP_SYNC [] .sync
  | verify (frame : List Byte) : CommandForm OP_VERIFY frame (.verify frame)
  | decode (frame : List Byte) : CommandForm OP_DECODE frame (.decode frame)
  | process : CommandForm OP_PROCESS [] .process
  | encRead (mask : Byte) : CommandForm OP_ENC_READ [mask] (.encRead mask)
  | encCfg (reg val : Byte) : CommandForm OP_ENC_CFG [reg, val] (.encCfg reg val)
  | flush : CommandForm OP_FLUSH [] .flush
  | illegal (op : BitVec 4) (operands : List Byte) (h : illegalOp op = true) : CommandForm op operands (.illegal op)

theorem bare_eq_ok {op : BitVec 4} {i j : Instr} {rest : List Byte} (h : bare op j rest = .ok i) :
    rest = [] ∧ i = j := by
  unfold bare at h
  split_ifs at h with hrest
  exact ⟨hrest, (Decoded.ok.inj h).symm⟩

theorem decodeEncRead_eq_ok {rest : List Byte} {i : Instr} (h : decodeEncRead rest = .ok i) :
    ∃ mask, rest = [mask] ∧ i = .encRead mask := by
  unfold decodeEncRead at h
  split at h
  · exact ⟨_, rfl, (Decoded.ok.inj h).symm⟩
  · cases h

theorem decodeEncCfg_eq_ok {rest : List Byte} {i : Instr} (h : decodeEncCfg rest = .ok i) :
    ∃ reg val, rest = [reg, val] ∧ i = .encCfg reg val := by
  unfold decodeEncCfg at h
  split at h
  · exact ⟨_, _, rfl, (Decoded.ok.inj h).symm⟩
  · cases h

/-- The ops of the ten commands and those of the ILLEGAL row are all there are (R84). -/
theorem mem_ops_or_illegalOp (op : BitVec 4) :
    op ∈ [OP_APPEND, OP_CONSUME, OP_PEEK, OP_SYNC, OP_VERIFY, OP_DECODE, OP_PROCESS, OP_ENC_READ, OP_ENC_CFG,
      OP_FLUSH] ∨ illegalOp op = true := by
  revert op
  decide

/-- What `decodeCommand` can give, said once: its op's row with the operands of that row. -/
theorem commandForm_of_decodeCommand {op : BitVec 4} {rest : List Byte} {i : Instr}
    (h : decodeCommand op rest = .ok i) : CommandForm op rest i := by
  rcases mem_ops_or_illegalOp op with hop | hop
  · fin_cases hop
    · cases h; exact .append rest
    · cases h; exact .consume rest
    · obtain ⟨rfl, rfl⟩ := bare_eq_ok (op := OP_PEEK) (j := .peek) h; exact .peek
    · obtain ⟨rfl, rfl⟩ := bare_eq_ok (op := OP_SYNC) (j := .sync) h; exact .sync
    · cases h; exact .verify rest
    · cases h; exact .decode rest
    · obtain ⟨rfl, rfl⟩ := bare_eq_ok (op := OP_PROCESS) (j := .process) h; exact .process
    · obtain ⟨mask, rfl, rfl⟩ := decodeEncRead_eq_ok h; exact .encRead mask
    · obtain ⟨reg, val, rfl, rfl⟩ := decodeEncCfg_eq_ok h; exact .encCfg reg val
    · obtain ⟨rfl, rfl⟩ := bare_eq_ok (op := OP_FLUSH) (j := .flush) h; exact .flush
  · rw [decodeCommand_illegal hop] at h
    cases h
    exact .illegal op rest hop

/-- What `decodeFrame` can give: the row that byte 1 of the 11 bytes selects. -/
theorem decodeFrame_eq_ok {cfg : Config} {rest : List Byte} {i : Instr} (h : decodeFrame cfg rest = .ok i) :
    ∃ fid p ck, START :: rest = p.frame fid ck ∧ i = frameRow cfg fid p ck := by
  unfold decodeFrame at h
  split at h
  · exact ⟨_, ⟨_, _, _, _, _, _, _, _⟩, _, rfl, (Decoded.ok.inj h).symm⟩
  · cases h

/-- What a message can decode to, said once: the row of a bare frame, or a command. -/
theorem decodeMessage_cases {cfg : Config} {message : List Byte} {i : Instr} (h : decodeMessage cfg message = .ok i) :
    (∃ fid p ck, message = p.frame fid ck ∧ i = frameRow cfg fid p ck) ∨
      ∃ op rest, message = opByte op :: rest ∧ CommandForm op rest i := by
  cases message with
  | nil => cases h
  | cons b rest =>
    rw [decodeMessage] at h
    split_ifs at h with hstart hop
    · exact .inl (hstart ▸ decodeFrame_eq_ok h)
    · exact .inr ⟨_, rest, by rw [opByte_setWidth hop], commandForm_of_decodeCommand h⟩

/-- The row a frame selects is well-formed: DEC_UNKNOWN is selected by no family's id (R75). -/
theorem wf_frameRow (cfg : Config) (fid : Byte) (p : Payload) (ck : Byte) : (frameRow cfg fid p ck).wf cfg = true := by
  rw [frameRow]
  cases hfamily : familyOf cfg fid with
  | none =>
    have hfid := familyOf_eq_none.mp hfamily
    simpa [rowOf, Instr.wf] using hfid
  | some f => cases f <;> rfl

/-- The message of the row a frame selects is the frame. -/
theorem encode_frameRow (cfg : Config) (fid : Byte) (p : Payload) (ck : Byte) :
    encode cfg (frameRow cfg fid p ck) = p.frame fid ck := by
  rw [frameRow]
  cases hfamily : familyOf cfg fid with
  | none => rfl
  | some f =>
    obtain rfl := familyId_of_familyOf hfamily
    cases f <;> rfl

/-- Settles O11, by the two forms of a message that decodes. -/
theorem decodedInstructionIsWellFormed : Obligations.DecodedInstructionIsWellFormed := by
  intro cfg message i h
  rcases decodeMessage_cases h with ⟨fid, p, ck, -, rfl⟩ | ⟨op, rest, -, hform⟩
  · exact wf_frameRow cfg fid p ck
  · cases hform with
    | illegal _ _ hop => exact hop
    | _ => rfl

/-- Settles O12: in each form of a message but the two left out, the operands are all there is in the message. -/
theorem encodeOfDecodeIsTheMessage : Obligations.EncodeOfDecodeIsTheMessage := by
  intro cfg message i h hconsume hillegal
  rcases decodeMessage_cases h with ⟨fid, p, ck, rfl, rfl⟩ | ⟨op, rest, rfl, hform⟩
  · exact encode_frameRow cfg fid p ck
  · cases hform with
    | consume size => exact absurd rfl (hconsume _)
    | illegal _ _ _ => exact absurd rfl (hillegal _)
    | _ => rfl

/-- Settles O13: each message is decoded by evaluation. -/
theorem sampleMessagesDecode : Obligations.SampleMessagesDecode := by
  refine ⟨?_, ?_, ?_, ?_, ?_, ?_, ?_, ?_, ?_, ?_⟩ <;> decide

/-- A frame under the mask that keeps its first two bytes (R88). -/
theorem frame_under_id_mask (p : Payload) (fid ck : Byte) :
    List.zipWith (· &&& ·) (p.frame fid ck) [0xFF, 0xFF, 0, 0, 0, 0, 0, 0, 0, 0, 0] =
      [0x55, fid, 0, 0, 0, 0, 0, 0, 0, 0, 0] := by
  have hones : fid &&& 255#8 = fid := BitVec.and_allOnes
  simp [Payload.frame, Payload.bytes, START, hones]

/-- A frame under the mask that keeps its first byte (R88). -/
theorem frame_under_start_mask (p : Payload) (fid ck : Byte) :
    List.zipWith (· &&& ·) (p.frame fid ck) [0xFF, 0, 0, 0, 0, 0, 0, 0, 0, 0, 0] =
      [0x55, 0, 0, 0, 0, 0, 0, 0, 0, 0, 0] := by
  simp [Payload.frame, Payload.bytes, START]

/-- Settles O16: each row's message is a frame of the row's id. -/
theorem frameRowsMatchTheTable : Obligations.FrameRowsMatchTheTable := by
  intro p fid ck under mask
  have hrow (id : Byte) : under mask (p.frame id ck) = [0x55, id, 0, 0, 0, 0, 0, 0, 0, 0, 0] :=
    frame_under_id_mask p id ck
  exact ⟨hrow 0x50, hrow 0x51, hrow 0x52, hrow 0x53, hrow 0x54, hrow 0x59, frame_under_start_mask p fid ck⟩

end Sys2Proof

namespace Sys2Proof.Machine

/-- The ten statuses in the order of their codes (R200). -/
def statuses : List Status :=
  [.ok, .failNoSpace, .failUnderrun, .noStart, .incomplete, .checksumMismatch, .unknownRegister, .badLength, .badStart,
    .illegalOp]

theorem mem_statuses (a : Status) : a ∈ statuses := by cases a <;> decide

/-- Settles O17: the codes of the ten statuses are compared one by one, and the two tables are as listed. -/
theorem statusCodesAreDistinct : Obligations.StatusCodesAreDistinct := by
  have hdistinct : ∀ a ∈ statuses, ∀ b ∈ statuses, a.code = b.code → a = b := by decide
  have hbound : ∀ a ∈ statuses, a.code.toNat ≤ 9 := by decide
  exact ⟨fun a b => hdistinct a (mem_statuses a) b (mem_statuses b), fun a => hbound a (mem_statuses a), rfl, rfl⟩

/-! ## Steps -/

theorem step_idle {s : State} (h : s.port = []) : step s = .next s := by rw [step, h]

theorem step_reset {s : State} {later : List Input} (h : s.port = .reset :: later) :
    step s = .next (assertReset { s with port := later }) := by
  rw [step, h]

theorem step_publish {s : State} {read : PublisherRead} {later : List Input} (h : s.port = .publish read :: later) :
    step s = .next (publisherRead read { s with port := later }) := by
  rw [step, h]

/-- A step takes the next message and runs what it decodes to (log 1). -/
theorem step_command {s : State} {message : List Byte} {later : List Input} {i : Instr}
    (h : s.port = .command message :: later) (hi : decodeMessage s.cfg message = .ok i) :
    step s = exec i { s with port := later } := by
  simp [step, h, hi]

/-- A step refuses a message that is no instruction (log 12). -/
theorem step_malformed {s : State} {message : List Byte} {later : List Input} {why : Rejection}
    (h : s.port = .command message :: later) (hwhy : decodeMessage s.cfg message = .reject why) :
    step s = .refused (.malformedMessage why) := by
  simp [step, h, hwhy]

/-- Settles O5. -/
theorem stepRunsDecodedInstruction : Obligations.StepRunsDecodedInstruction :=
  ⟨fun _ => step_idle, fun _ _ _ _ => step_command⟩

/-- Settles O15: both sides hand out the same request, or are the same instruction. -/
theorem pseudoInstructionIsItsExpansion : Obligations.PseudoInstructionIsItsExpansion := by
  intro i s
  cases i <;> rfl

/-- Settles O6: the message decodes to the expansion, which does the same. -/
theorem encodedInstructionRuns : Obligations.EncodedInstructionRuns := by
  intro s i later hcfg hi hport
  rw [step_command hport (decodeOfEncodeIsTheInstruction s.cfg i hcfg hi)]
  exact (pseudoInstructionIsItsExpansion i { s with port := later }).symm

theorem Effect.out_eq {s t : State} {i : Instr} (h : Effect s i t) : ∃ r, t.out = some (.response r) := by
  cases h <;> exact ⟨_, rfl⟩

/-- Settles O7: every effect writes a response. -/
theorem everyCommandAnswers : Obligations.EveryCommandAnswers := by
  intro i s
  obtain ⟨t, hexec, heffect⟩ := exec_effect i s
  obtain ⟨r, hout⟩ := heffect.out_eq
  exact ⟨t, r, hexec, hout⟩

/-- A step answers a next state, or its next input is a message that decodes to nothing. -/
theorem step_next_or_malformed (s : State) :
    (∃ t, step s = .next t) ∨
      ∃ message later why, s.port = .command message :: later ∧ decodeMessage s.cfg message = .reject why := by
  rcases hport : s.port with _ | ⟨x, later⟩
  · exact .inl ⟨_, step_idle hport⟩
  · cases x with
    | reset => exact .inl ⟨_, step_reset hport⟩
    | publish read => exact .inl ⟨_, step_publish hport⟩
    | command message =>
      cases hmessage : decodeMessage s.cfg message with
      | ok i =>
        obtain ⟨t, hexec, _⟩ := exec_effect i { s with port := later }
        exact .inl ⟨t, (step_command hport hmessage).trans hexec⟩
      | reject why => exact .inr ⟨message, later, why, rfl, hmessage⟩

/-- Settles O8: a step that is no next state is that of a malformed message, whose reason the refusal names. -/
theorem stepStopsOnlyAtMalformedMessage : Obligations.StepStopsOnlyAtMalformedMessage := by
  intro s
  refine ⟨fun r => ⟨?refused, ?malformed⟩, ?otherwise⟩
  case refused =>
    intro hr
    rcases step_next_or_malformed s with ⟨t, ht⟩ | ⟨message, later, why, hport, hwhy⟩
    · rw [ht] at hr; cases hr
    · rw [step_malformed hport hwhy] at hr
      cases hr
      exact ⟨message, later, why, hport, hwhy, rfl⟩
  case malformed =>
    rintro ⟨message, later, why, hport, hwhy, rfl⟩
    exact step_malformed hport hwhy
  case otherwise =>
    intro hnot
    rcases step_next_or_malformed s with hnext | ⟨message, later, why, hport, hwhy⟩
    · exact hnext
    · exact absurd (step_malformed hport hwhy) (hnot _)

theorem Effect.cfg_port {s t : State} {i : Instr} (h : Effect s i t) : t.cfg = s.cfg ∧ t.port = s.port := by
  cases h <;> exact ⟨rfl, rfl⟩

/-- A step keeps the parameters and takes at most the next input from the port. -/
theorem step_cfg_port {s t : State} (h : step s = .next t) : t.cfg = s.cfg ∧ t.port = s.port.tail := by
  rcases step_cases h with ⟨hport, rfl⟩ | ⟨later, hport, rfl⟩ | ⟨read, later, hport, rfl⟩ |
    ⟨message, later, i, hport, _, _, heffect⟩
  · exact ⟨rfl, by rw [hport]; rfl⟩
  · exact ⟨rfl, by rw [hport]; rfl⟩
  · exact ⟨rfl, by rw [hport]; rfl⟩
  · obtain ⟨hcfg, hlater⟩ := heffect.cfg_port
    exact ⟨hcfg, by rw [hport, hlater]; rfl⟩

/-- Settles O4. -/
theorem stepNeverChangesParameters : Obligations.StepNeverChangesParameters := by
  intro s t hstep
  obtain ⟨hcfg, _⟩ := step_cfg_port hstep
  exact hcfg

/-- With acceptable inputs a step answers a next state (R215). -/
theorem step_next_of_acceptable {s : State} (h : ∀ x ∈ s.port, x.acceptable s.cfg = true) : ∃ t, step s = .next t := by
  rcases step_next_or_malformed s with hnext | ⟨message, later, why, hport, hwhy⟩
  · exact hnext
  · have hmessage := h (.command message) (by simp [hport])
    simp [Input.acceptable, hwhy, Decoded.toOption] at hmessage

/-- Settles O9, by induction on the length of the run: a step keeps the invariant, and the inputs left are acceptable. -/
theorem acceptableInputsNeverStopTheBlock : Obligations.AcceptableInputsNeverStopTheBlock := by
  intro s n hinv hport
  induction n generalizing s with
  | zero => exact hinv
  | succ n ih =>
    obtain ⟨t, hstep⟩ := step_next_of_acceptable hport
    obtain ⟨hcfg, hlater⟩ := step_cfg_port hstep
    refine ⟨hinv, t, hstep, ih t (stepKeepsInvariant s t hinv hstep) fun x hx => ?_⟩
    rw [hcfg]
    exact hport x (List.mem_of_mem_tail (hlater ▸ hx))

/-! ## Reset -/

theorem get_valid_reset (f : Family) : Record.reset.valid.get f = false := by cases f <;> rfl

/-- Settles O1. -/
theorem resetEmptiesBufferAndClearsValidBits : Obligations.ResetEmptiesBufferAndClearsValidBits := by
  refine ⟨rfl, fun cfg => ⟨rfl, rfl, rfl, rfl, get_valid_reset⟩, fun s later hport => ?_⟩
  exact ⟨_, step_reset hport, rfl, rfl, rfl, get_valid_reset, rfl, rfl⟩

/-- Settles O2: the default parameters are well-formed. -/
theorem resetMeetsInvariant : Obligations.ResetMeetsInvariant :=
  ⟨inv_resetWith (by decide), fun _ => inv_resetWith⟩

/-! ## Illegal ops -/

theorem exec_illegal_eq (op : BitVec 4) (s : State) :
    exec (.illegal op) s = .next { s with out := reply .illegalOp [] none } := rfl

/-- Settles O14: the message decodes to the illegal op, whatever follows it. -/
theorem illegalOpChangesNothing : Obligations.IllegalOpChangesNothing := by
  refine ⟨exec_illegal_eq, fun s op operands later hop hport => ?_⟩
  have hillegal : illegalOp op = true := by simpa [illegalOp] using hop
  have hdecode : decodeMessage s.cfg (opByte op :: operands) = .ok (.illegal op) := by
    rw [decodeMessage_opByte, decodeCommand_illegal hillegal]
  exact (step_command hport hdecode).trans (exec_illegal_eq op _)

/-! ## The publisher -/

/-- Settles O56: the two answers to a group read. -/
theorem publisherReadsOnlyValidGroups : Obligations.PublisherReadsOnlyValidGroups := by
  intro s later f hport
  refine ⟨fun hvalid => ?_, fun hvalid => ?_⟩ <;>
    simp [step_publish hport, publisherRead, publisherAnswer, hvalid]

/-- The groups of a field are the families whose frame writes it (R141). -/
theorem mem_groups_iff {x : RecordField} {f : Family} : f ∈ x.groups ↔ x ∈ familyFields f := by
  cases x with
  | accRaw i | gyroRaw i | angleRaw i | mag i | quatRaw i => fin_cases i <;> cases f <;> decide
  | _ => cases f <;> decide

theorem defined_iff {r : Record} {x : RecordField} :
    r.defined x = true ↔ ∃ f, x ∈ familyFields f ∧ r.valid.get f = true := by
  simp only [Record.defined, List.any_eq_true, mem_groups_iff]

/-- Settles O57: the two answers to a field read, which fields are defined, and the valid bits. -/
theorem publisherReadsFieldsAndValidBits : Obligations.PublisherReadsFieldsAndValidBits := by
  refine ⟨?field, fun _ _ => defined_iff, ?temperature, fun s later hport => step_publish hport⟩
  case field =>
    intro s later x hport
    refine ⟨fun hdefined => ?_, fun hdefined => ?_⟩ <;>
      simp [step_publish hport, publisherRead, publisherAnswer, hdefined]
  case temperature =>
    intro r
    simp [Record.defined, RecordField.groups, ValidBits.get]

end Sys2Proof.Machine

/-! The buffer and the synchronizer (41_circular_byte_buffer.md, 42_frame_synchronizer.md). -/

namespace Sys2Proof.Machine

/-! ## The buffer -/

theorem memRead_getElem? {cap : Nat} {m : Memory} {addr n k : Nat} (h : k < n) :
    (memRead cap m addr n)[k]? = some (readByte m ((addr + k) % cap)) := by
  rw [List.getElem?_eq_getElem (by simpa using h), memRead_getElem]

/-- CONSUME of bytes that are there (R101). -/
theorem exec_consume_of_le {s : State} {size : Nat} (h : size ≤ s.available) :
    exec (.consume size) s =
      .next (answer .ok (memRead s.cfg.capacity s.mem s.head size) none (dropFront size s)) := by
  rw [exec_consume, execConsume, if_neg h.not_gt]

/-- CONSUME of more than is there (R101). -/
theorem exec_consume_of_lt {s : State} {size : Nat} (h : s.available < size) :
    exec (.consume size) s = .next (raise .failUnderrun s) := by
  rw [exec_consume, execConsume, if_pos h]

/-- Settles O19: the bytes are what MemRead gives at `head`. -/
theorem consumeReturnsOldestOrFails : Obligations.ConsumeReturnsOldestOrFails := by
  intro s size
  refine ⟨fun hsize => ?_, exec_consume_of_lt⟩
  exact ⟨_, memRead_length _ _ _ _, fun k hk => memRead_getElem? hk, exec_consume_of_le hsize⟩

/-- Settles O20: the bytes are the valid region. -/
theorem peekShowsValidBytes : Obligations.PeekShowsValidBytes := by
  intro s
  exact ⟨s.validRegion, validRegion_length s, fun k hk => memRead_getElem? hk, rfl⟩

/-- Settles O21. -/
theorem flushEmptiesTheBuffer : Obligations.FlushEmptiesTheBuffer := by
  intro s hinv
  rw [exec_flush, execFlush, dropFront_available_eq hinv]
  rfl

/-- An APPEND that answers OK has put its bytes behind the valid ones (R100). -/
theorem validRegion_of_append_ok {s t : State} {data : List Byte} (h : s.Inv) (hexec : exec (.append data) s = .next t)
    (hok : t.status = some .ok) : t.Inv ∧ t.validRegion = s.validRegion ++ data := by
  rcases Nat.lt_or_ge s.cfg.capacity (s.available + data.length) with hfull | hfits
  · rw [exec_append_of_not_fits hfull] at hexec
    cases hexec
    cases hok
  · rw [exec_append_of_fits hfits] at hexec
    cases hexec
    exact ⟨inv_pushBack hfits h, validRegion_pushBack hfits h⟩

/-- Settles O22: two APPENDs lengthen the valid region, and CONSUME of all of it hands it out. -/
theorem bytesLeaveInTheOrderTheyEntered : Obligations.BytesLeaveInTheOrderTheyEntered := by
  intro s t₁ t₂ t₃ a b hinv hexec₁ hok₁ hexec₂ hok₂ hexec₃
  obtain ⟨hinv₁, hregion₁⟩ := validRegion_of_append_ok hinv hexec₁ hok₁
  obtain ⟨_, hregion₂⟩ := validRegion_of_append_ok hinv₁ hexec₂ hok₂
  rw [exec_consume_of_le le_rfl] at hexec₃
  cases hexec₃
  refine ⟨?bytes, Nat.sub_self _⟩
  case bytes =>
    rw [← hregion₁, ← hregion₂]
    rfl

/-- Settles O23, by the effects an instruction can have. -/
theorem bufferStateHasTheWritersOfItsTable : Obligations.BufferStateHasTheWritersOfItsTable := by
  intro i s t hexec
  cases effect_of_exec hexec with
  | quiet | accept => exact ⟨fun _ => ⟨rfl, rfl⟩, fun _ _ _ _ => ⟨rfl, fun _ => rfl⟩⟩
  | append data _ => exact ⟨fun h => absurd rfl (h data), fun _ _ _ _ => ⟨rfl, fun h => absurd rfl (h data)⟩⟩
  | consume n _ => exact ⟨fun _ => ⟨rfl, rfl⟩, fun h => absurd rfl (h n)⟩
  | sync => exact ⟨fun _ => ⟨rfl, rfl⟩, fun _ h => absurd rfl h⟩
  | processRefuses | processAccepts => exact ⟨fun _ => ⟨rfl, rfl⟩, fun _ _ h => absurd rfl h⟩
  | flush => exact ⟨fun _ => ⟨rfl, rfl⟩, fun _ _ _ h => absurd rfl h⟩

/-! ## The synchronizer -/

/-- A queue with its first start marker at place `j`: noise, the marker, and more. -/
theorem eq_noise_append_start {q : List Byte} {j : Nat} (hbefore : ∀ k < j, q[k]? ≠ some START)
    (hj : q[j]? = some START) :
    ∃ noise more, q = noise ++ START :: more ∧ noise.length = j ∧ ∀ b ∈ noise, b ≠ START := by
  obtain ⟨hlt, hget⟩ := List.getElem?_eq_some_iff.mp hj
  refine ⟨q.take j, q.drop (j + 1), ?split, List.length_take_of_le hlt.le, ?noise⟩
  case split => rw [← hget, ← List.drop_eq_getElem_cons hlt, List.take_append_drop]
  case noise =>
    intro b hb hstart
    obtain ⟨k, hk, hbk⟩ := List.mem_take_iff_getElem.mp hb
    have hkq : k < q.length := by omega
    exact hbefore k (by omega) (by rw [List.getElem?_eq_getElem hkq, hbk, hstart])

/-- Settles O24: SYNC drops the noise, which is what stands before the first start marker, or everything. -/
theorem syncAdvancesToFirstStart : Obligations.SyncAdvancesToFirstStart := by
  intro s hinv
  refine ⟨?found, ?none⟩
  case found =>
    intro j _ hbefore hj
    obtain ⟨noise, more, hregion, rfl, hnoise⟩ := eq_noise_append_start hbefore hj
    have hfrom : fromStart s.validRegion ≠ [] := by simp [hregion, fromStart_append_of_noise hnoise, fromStart_start]
    have hlen : noiseLength s.validRegion = noise.length := by
      rw [hregion, noiseLength_append_of_noise hnoise, noiseLength_start, Nat.add_zero]
    rw [exec_sync, execSync_eq hinv.head_lt, if_neg hfrom, hlen]
    rfl
  case none =>
    intro hnoise
    have hfrom : fromStart s.validRegion = [] := by simpa [fromStart] using fromStart_append_of_noise hnoise []
    have hlen : noiseLength s.validRegion = s.available := by rw [noiseLength, hfrom, validRegion_length]; rfl
    rw [exec_sync, execSync_eq hinv.head_lt, if_pos hfrom, hlen, dropFront, Nat.sub_self]
    rfl

end Sys2Proof.Machine

/-! The checksum, and the words of a frame (20_memory.md, 43_checksum_validator.md). -/

namespace Sys2Proof.Machine

/-- The checksum's sum is the sum of the bytes as 8-bit words (R63). -/
theorem sum8_eq_sum (b : List Byte) : sum8 b = b.sum := by
  induction b with
  | nil => rfl
  | cons x b ih =>
    have hcons : sum8 (x :: b) = x + sum8 b := by simp [sum8, BitVec.ofNat_add]
    rw [hcons, ih, List.sum_cons]

/-- The checksum's sum in natural numbers (R63). -/
theorem sum8_eq_iff {b : List Byte} {x : Byte} : sum8 b = x ↔ (b.map BitVec.toNat).sum % 256 = x.toNat := by
  rw [← BitVec.toNat_inj, sum8, BitVec.toNat_ofNat]

/-- Settles O29: the sum of 8-bit words, from the left. -/
theorem eightBitAccumulatorGivesTheSum : Obligations.EightBitAccumulatorGivesTheSum := by
  intro b
  rw [sum8_eq_sum, List.sum_eq_foldl]

theorem toNat_u16le (lo hi : Byte) : (u16le lo hi).toNat = lo.toNat + 256 * hi.toNat := by
  rw [u16le, BitVec.toNat_ofNat, Nat.mod_eq_of_lt (by omega)]

/-- Settles O30: a pair is below 65536, so its 16 bits hold it. -/
theorem pairsAreLittleEndianTwosComplement : Obligations.PairsAreLittleEndianTwosComplement := by
  intro lo hi
  rw [u16, s16, toNat_u16le]
  refine ⟨by push_cast; rfl, fun hsmall => ?_, fun hlarge => ?_⟩
  · rw [if_pos hsmall]; push_cast; rfl
  · rw [if_neg hlarge.not_gt]; push_cast; rfl

section Frame
variable {ten : List Byte} (hten : ten.length = 10) (last : Byte)
include hten

theorem csum_append : csum (ten ++ [last]) = sum8 ten := by rw [csum, List.take_left' hten]

theorem frameByte_append_ten : frameByte (ten ++ [last]) 10 = last := by simp [frameByte, ← hten]

/-- The checksum test on ten bytes and an eleventh, in natural numbers (R131). -/
theorem checksumGood_append :
    checksumGood (ten ++ [last]) = true ↔ (ten.map BitVec.toNat).sum % 256 = last.toNat := by
  rw [checksumGood, beq_iff_eq, csum_append hten, frameByte_append_ten hten, sum8_eq_iff]

end Frame

/-- VERIFY of a frame of 11 bytes (R131). -/
theorem execVerify_of_length {frame : List Byte} (h : frame.length = 11) (s : State) :
    execVerify frame s = .next (raise (if checksumGood frame then .ok else .checksumMismatch) s) := by
  simp only [execVerify, FRAME_LEN, h, ne_eq, not_true_eq_false, if_false]
  split_ifs <;> rfl

/-- Settles O26: the length test, then the checksum test. -/
theorem verifyComparesTheSum : Obligations.VerifyComparesTheSum := by
  intro s frame
  refine ⟨fun hlen => ?length, ?sum⟩
  case length =>
    rw [exec_verify, execVerify, if_pos (show frame.length ≠ FRAME_LEN from hlen)]
    rfl
  case sum =>
    rintro ten last hten rfl
    have hgood := checksumGood_append hten last
    rw [exec_verify, execVerify_of_length (by simp [hten])]
    refine ⟨fun hsum => ?_, fun hsum => ?_⟩
    · rw [if_pos (hgood.mpr hsum)]; rfl
    · rw [if_neg (mt hgood.mp hsum)]; rfl

/-- Settles O28: the one byte is the sum of the ten. -/
theorem exactlyOneChecksumVerifies : Obligations.ExactlyOneChecksumVerifies := by
  intro ten hten
  refine ⟨sum8 ten, BitVec.toNat_ofNat _ _, fun s t last hexec => ?_⟩
  have hgood : checksumGood (ten ++ [last]) = true ↔ last = sum8 ten := by
    rw [checksumGood_append hten, ← sum8_eq_iff, eq_comm]
  rw [exec_verify, execVerify_of_length (by simp [hten])] at hexec
  cases hexec
  rw [raise_status, ← hgood]
  split_ifs with h <;> simp [h]

/-- VERIFY answers OK for 11 bytes that pass the checksum test only (R131). -/
theorem verify_ok {frame : List Byte} {s t : State} (hexec : exec (.verify frame) s = .next t)
    (hok : t.status = some .ok) : frame.length = 11 ∧ csum frame = frameByte frame 10 := by
  rw [exec_verify, execVerify_eq] at hexec
  cases hexec
  rw [raise_status] at hok
  split_ifs at hok with hlen hsum
  · cases hok
  · exact ⟨not_not.mp hlen, hsum⟩
  · cases hok

/-- A sum of bytes changes with any one of them. -/
theorem sum_set_ne {l : List Byte} {j : Nat} {b : Byte} (hj : j < l.length) (hb : l[j] ≠ b) :
    (l.set j b).sum ≠ l.sum := by
  rw [List.sum_set', dif_pos hj]
  intro h
  have hzero : -l[j] + b = 0 := by simpa using h
  exact hb (neg_add_eq_zero.mp hzero)

/-- In a frame that verifies, one changed byte makes the sum and the last byte differ (R132). -/
theorem csum_set_ne {frame : List Byte} {j : Nat} {b : Byte} (hlen : frame.length = 11)
    (hgood : csum frame = frameByte frame 10) (hj : j < 11) (hb : frame[j]? ≠ some b) :
    csum (frame.set j b) ≠ frameByte (frame.set j b) 10 := by
  have hjlen : j < frame.length := by omega
  have hne : frame[j] ≠ b := fun h => hb (by rw [List.getElem?_eq_getElem hjlen, h])
  rcases Nat.lt_or_ge j 10 with hlt | hge
  · have hlast : frameByte (frame.set j b) 10 = frameByte frame 10 := by
      simp [frameByte, List.getD_eq_getElem?_getD, hlt.ne]
    have hjtake : j < (frame.take 10).length := by simp [hlen, hlt]
    have hsum := sum_set_ne hjtake (b := b) (by simpa using hne)
    rw [hlast, ← hgood, csum, csum, sum8_eq_sum, sum8_eq_sum, List.take_set]
    exact hsum
  · obtain rfl : j = 10 := by omega
    have hlast : frameByte (frame.set 10 b) 10 = b := by simp [frameByte, List.getD_eq_getElem?_getD, hlen]
    have hold : frameByte frame 10 = frame[10] := by simp [frameByte, hjlen]
    have hsum : csum (frame.set 10 b) = csum frame := by rw [csum, csum, List.take_set_of_le le_rfl]
    rw [hlast, hsum, hgood, hold]
    exact hne

/-- Settles O27. -/
theorem singleChangedByteIsDetected : Obligations.SingleChangedByteIsDetected := by
  intro s t frame j b hexec hok hj hb
  obtain ⟨hlen, hgood⟩ := verify_ok hexec hok
  have hbad := csum_set_ne hlen hgood hj hb
  rw [exec_verify, execVerify_eq, if_neg (by simp [hlen]), if_neg hbad]
  rfl

end Sys2Proof.Machine

/-! The Register Decoder's statements, the rest of them (44_register_decoder.md). -/

namespace Sys2Proof.Machine

/-! ## The arms -/

/-- The TIME arm, in the bytes of the payload (R143). -/
theorem decodeArm_time_frame (p : Payload) (fid ck : Byte) (s : State) :
    decodeArm .time (p.frame fid ck) s =
      { s with
        record :=
          { s.record with
            time := ⟨p.b2, p.b3, p.b4, p.b5, p.b6, p.b7, u16le p.b8 p.b9⟩
            valid := { s.record.valid with time := true } }
        out := reply .ok [] (some .time) } := rfl

/-- The ANGLE arm, in the bytes of the payload (R146). -/
theorem decodeArm_angle_frame (p : Payload) (fid ck : Byte) (s : State) :
    decodeArm .angle (p.frame fid ck) s =
      { s with
        record :=
          { s.record with
            angle := ⟨u16le p.b2 p.b3, u16le p.b4 p.b5, u16le p.b6 p.b7⟩
            version := u16le p.b8 p.b9
            valid := { s.record.valid with angle := true } }
        out := reply .ok [] (some .angle) } := rfl

/-- The MAGNETIC arm, in the bytes of the payload (R147). -/
theorem decodeArm_mag_frame (p : Payload) (fid ck : Byte) (s : State) :
    decodeArm .mag (p.frame fid ck) s =
      { s with
        record :=
          { s.record with
            mag := ⟨u16le p.b2 p.b3, u16le p.b4 p.b5, u16le p.b6 p.b7⟩
            magTempRaw := u16le p.b8 p.b9
            valid := { s.record.valid with mag := true } }
        out := reply .ok [] (some .mag) } := rfl

/-- The QUATERNION arm, in the bytes of the payload (R148). -/
theorem decodeArm_quat_frame (p : Payload) (fid ck : Byte) (s : State) :
    decodeArm .quat (p.frame fid ck) s =
      { s with
        record :=
          { s.record with
            quat := ⟨u16le p.b2 p.b3, u16le p.b4 p.b5, u16le p.b6 p.b7, u16le p.b8 p.b9⟩
            valid := { s.record.valid with quat := true } }
        out := reply .ok [] (some .quat) } := rfl

/-- Settles O31: both instructions run the TIME arm; the millisecond is read as unsigned. -/
theorem timeFrameWritesTimeGroup : Obligations.TimeFrameWritesTimeGroup := by
  intro s p hwf ck t
  have ht : decodeArm .time (p.frame s.cfg.fidTime ck) s = t := decodeArm_time_frame p s.cfg.fidTime ck s
  exact ⟨ht ▸ exec_goodFrame hwf .time p, rfl⟩

/-- Settles O34: both instructions run the ANGLE arm; the axes are read as signed, the version as unsigned. -/
theorem angleFrameWritesAxesAndVersion : Obligations.AngleFrameWritesAxesAndVersion := by
  intro s p hwf ck t
  have ht : decodeArm .angle (p.frame s.cfg.fidAngle ck) s = t := decodeArm_angle_frame p s.cfg.fidAngle ck s
  exact ⟨ht ▸ exec_goodFrame hwf .angle p, rfl⟩

/-- Settles O35: both instructions run the MAGNETIC arm; the axes are read as unsigned, the trailing pair as signed. -/
theorem magneticFrameWritesAxesAndOwnTemperature : Obligations.MagneticFrameWritesAxesAndOwnTemperature := by
  intro s p hwf ck t
  have ht : decodeArm .mag (p.frame s.cfg.fidMag ck) s = t := decodeArm_mag_frame p s.cfg.fidMag ck s
  exact ⟨ht ▸ exec_goodFrame hwf .mag p, rfl⟩

/-- Settles O36: both instructions run the QUATERNION arm; the four components are read as signed. -/
theorem quaternionFrameWritesFourComponents : Obligations.QuaternionFrameWritesFourComponents := by
  intro s p hwf ck t
  have ht : decodeArm .quat (p.frame s.cfg.fidQuat ck) s = t := decodeArm_quat_frame p s.cfg.fidQuat ck s
  exact ⟨ht ▸ exec_goodFrame hwf .quat p, rfl⟩

/-! ## The checks -/

theorem checksumGood_frame_of_ne {p : Payload} {fid ck : Byte} (h : ck ≠ goodChecksum fid p) :
    ¬ checksumGood (p.frame fid ck) = true := by
  rw [checksumGood, beq_iff_eq, csum_frame, frameByte_ten]
  exact h.symm

theorem decodeWindow_of_bad {frame : List Byte} (h : ¬ checksumGood frame = true) (s : State) :
    decodeWindow frame s = raise .checksumMismatch s := by
  rw [decodeWindow, if_neg h]

theorem decodeWindow_of_unknown {frame : List Byte} {s : State} (h : checksumGood frame = true)
    (hfamily : familyOf s.cfg (frameByte frame 1) = none) : decodeWindow frame s = raise .unknownRegister s := by
  simp [decodeWindow, h, hfamily]

/-- Settles O38: DECODE and every row test the checksum before they look at the family. -/
theorem badChecksumChangesNothing : Obligations.BadChecksumChangesNothing := by
  intro s p ck
  refine ⟨fun fid hck => ?frame, fun f hck => ?row⟩
  case frame =>
    have hbad := checksumGood_frame_of_ne hck
    have hdecode : exec (.decode (p.frame fid ck)) s = .next (raise .checksumMismatch s) := by
      rw [exec_decode, execDecode_frame, decodeWindow_of_bad hbad]
    have hunknown : exec (.decUnknown fid p ck) s = .next (raise .checksumMismatch s) := by
      rw [exec_decUnknown, execDecUnknown, if_neg hbad]
    exact List.forall_mem_cons.mpr ⟨hdecode, List.forall_mem_singleton.mpr hunknown⟩
  case row =>
    rw [exec_rowOf_some, execArm, if_neg (checksumGood_frame_of_ne hck)]
    rfl

/-- Settles O39: the checks of DECODE in their order. -/
theorem decodeReportsTheFirstFailingCheck : Obligations.DecodeReportsTheFirstFailingCheck := by
  intro s frame
  refine ⟨?length, ?start, ?checksum, ?family⟩
  case length =>
    intro hlen
    rw [exec_decode, execDecode, if_pos (show frame.length ≠ FRAME_LEN from hlen)]
    rfl
  case start =>
    rintro b rest rfl hlen hb
    rw [exec_decode, execDecode, if_neg (by simp [hlen, FRAME_LEN]),
      if_pos (show frameByte (b :: rest) 0 ≠ START from hb)]
    rfl
  case checksum =>
    rintro ten last rfl hlen hsum
    have hten : ((0x55 : Byte) :: ten).length = 10 := by simp [hlen]
    rw [exec_decode, execDecode_of_window (by simp [hlen]) rfl,
      decodeWindow_of_bad (mt (checksumGood_append hten last).mp hsum)]
    rfl
  case family =>
    rintro fid eight last rfl hlen hsum hfid
    have hten : ((0x55 : Byte) :: fid :: eight).length = 10 := by simp [hlen]
    rw [exec_decode, execDecode_of_window (by simp [hlen]) rfl,
      decodeWindow_of_unknown ((checksumGood_append hten last).mpr hsum) (familyOf_eq_none.mpr hfid)]
    rfl

/-- Settles O40: a row of a family, or DEC_UNKNOWN, does what DECODE of its frame does. -/
theorem frameRowDoesWhatDecodeOfItsFrameDoes : Obligations.FrameRowDoesWhatDecodeOfItsFrameDoes := by
  intro s p fid ck hwf
  rw [frameRow, exec_decode]
  cases hfamily : familyOf s.cfg fid with
  | none => exact execDecUnknown_eq hfamily p ck
  | some f =>
    obtain rfl := familyId_of_familyOf hfamily
    rw [exec_rowOf_some, execArm_eq hwf]

/-! ## What a command does to the record -/

/-- What any command does to the record, said once: nothing, and it answers without a family, or it writes the group of
the family it answers with. -/
theorem Effect.record_cases {s t : State} {i : Instr} (h : Effect s i t) :
    (t.record = s.record ∧ ∃ r, t.out = some (.response r) ∧ r.family = none) ∨
      ∃ f frame, t.record = writeFamily f frame s.record ∧ t.out = reply .ok [] (some f) := by
  cases h with
  | quiet _ r hr _ => exact .inl ⟨rfl, r, rfl, hr⟩
  | append | consume | flush | sync | processRefuses => exact .inl ⟨rfl, _, rfl, rfl⟩
  | accept _ f frame => exact .inr ⟨f, frame, rfl, rfl⟩
  | processAccepts _ _ f frame => exact .inr ⟨f, frame, rfl, rfl⟩

/-- A command that changes the record writes the group of the family it answers with. -/
theorem Effect.record_of_ne {s t : State} {i : Instr} (h : Effect s i t) (hne : t.record ≠ s.record) :
    ∃ f frame, t.record = writeFamily f frame s.record ∧ t.out = reply .ok [] (some f) :=
  h.record_cases.resolve_left fun ⟨hsame, _⟩ => hne hsame

/-- Settles O41: the family in the response is that of the group written. -/
theorem acceptedFrameWritesOnlyItsFields : Obligations.AcceptedFrameWritesOnlyItsFields := by
  intro i s t f bytes hexec hout
  rcases (effect_of_exec hexec).record_cases with ⟨_, r, hr, hnone⟩ | ⟨g, frame, hrecord, hg⟩
  · rw [hr] at hout
    cases hout
    cases hnone
  · rw [hg] at hout
    cases hout
    refine ⟨fun x hx => hrecord ▸ writeFamily_field_of_notMem f frame s.record hx, fun g => ?valid⟩
    case valid =>
      rw [hrecord, writeFamily_valid, get_set]
      by_cases hgf : g = f
      · simp [hgf]
      · simp [hgf, Ne.symm hgf]

/-- Settles O42. -/
theorem recordChangesOnlyOnAcceptedFrame : Obligations.RecordChangesOnlyOnAcceptedFrame := by
  intro i s t hexec hne
  obtain ⟨f, _, _, hout⟩ := (effect_of_exec hexec).record_of_ne hne
  exact ⟨[], f, hout⟩

/-- Settles O44: a group that is written sets a valid bit and clears none. -/
theorem commandsNeverClearAValidBit : Obligations.CommandsNeverClearAValidBit := by
  intro i s t f hexec hvalid
  rcases (effect_of_exec hexec).record_cases with ⟨hsame, _⟩ | ⟨g, frame, hrecord, _⟩
  · rwa [hsame]
  · rw [hrecord, writeFamily_valid]
    exact get_set_of_get _ hvalid

/-- Settles O45: of the six groups two have the temperature. -/
theorem onlyTwoFamiliesWriteTheTemperature : Obligations.OnlyTwoFamiliesWriteTheTemperature := by
  intro i s t hexec hne
  have hrecord : t.record ≠ s.record := fun h => hne (congrArg Record.tempRaw h)
  obtain ⟨f, frame, hwrite, hout⟩ := (effect_of_exec hexec).record_of_ne hrecord
  rw [hwrite] at hne
  cases f with
  | acc => exact .inl hout
  | gyro => exact .inr hout
  | time | angle | mag | quat => exact absurd rfl hne

/-! ## Failures -/

/-- The statuses of a command that writes more than its response (R214). -/
theorem Effect.still_or_status {s t : State} {i : Instr} (h : Effect s i t) :
    t = { s with out := t.out } ∨ t.status ∈ [some Status.ok, some .noStart, some .incomplete] ∨
      (i = .process ∧ t.status ∈ [some Status.checksumMismatch, some .unknownRegister]) := by
  cases h with
  | quiet => exact .inl rfl
  | append | consume | flush | accept | processAccepts => exact .inr (.inl (by simp [decodeArm]))
  | sync _ _ st hst => rcases hst with rfl | rfl <;> exact .inr (.inl (by simp))
  | processRefuses _ _ st hst =>
    rcases hst with rfl | rfl | rfl | rfl
    · exact .inr (.inl (by simp))
    · exact .inr (.inl (by simp))
    · exact .inr (.inr ⟨rfl, by simp⟩)
    · exact .inr (.inr ⟨rfl, by simp⟩)

/-- Settles O43: the failures of the first kind are none of the statuses that come with a change. -/
theorem failureOfTheFirstKindChangesNothing : Obligations.FailureOfTheFirstKindChangesNothing := by
  intro i s t st hexec hst hfailure
  rcases (effect_of_exec hexec).still_or_status with hstill | hstatus | ⟨hprocess, hstatus⟩
  · exact hstill
  · rw [hst] at hstatus
    fin_cases hstatus <;> simp at hfailure
  · rw [hst] at hstatus
    fin_cases hstatus <;> simp [hprocess] at hfailure

/-! ## Physical values -/

theorem s16_bounds (v : Half) : -32768 ≤ s16 v ∧ s16 v ≤ 32767 := by
  have hv := v.isLt
  unfold s16
  split_ifs <;> omega

theorem u16_bounds (v : Half) : 0 ≤ u16 v ∧ u16 v ≤ 65535 := by
  have hv := v.isLt
  unfold u16
  omega

theorem byte_bounds (b : Byte) : (0 : Int) ≤ b.toNat ∧ (b.toNat : Int) ≤ 255 := by
  have hb := b.isLt
  omega

theorem s16_rat_bounds (v : Half) : (-32768 : ℚ) ≤ s16 v ∧ (s16 v : ℚ) ≤ 32767 := by exact_mod_cast s16_bounds v

theorem u16_rat_bounds (v : Half) : (0 : ℚ) ≤ u16 v ∧ (u16 v : ℚ) ≤ 65535 := by exact_mod_cast u16_bounds v

theorem byte_rat_bounds (b : Byte) : (0 : ℚ) ≤ (b.toNat : Int) ∧ ((b.toNat : Int) : ℚ) ≤ 255 := by
  exact_mod_cast byte_bounds b

/-- The range of a temperature (R142). -/
theorem s16_hundredth_bounds (v : Half) : -32768 / 100 ≤ (s16 v : ℚ) / 100 ∧ (s16 v : ℚ) / 100 ≤ 32767 / 100 := by
  obtain ⟨hlo, hhi⟩ := s16_rat_bounds v
  constructor <;> linarith

/-- Settles O46: a row's value is its raw integer times a constant, and a raw integer is in the range of its form: a byte,
16 bits unsigned, or 16 bits signed. -/
theorem physicalValuesAreExactAndInRange : Obligations.PhysicalValuesAreExactAndInRange := by
  intro r
  refine ⟨fun i => ?acc, fun i => ?gyro, fun i => ?angle, fun i => ?quat, ?temperature, ?unsigned, ?byte, ?unreliable⟩
  case acc =>
    have hvalue : r.value (.accRaw i) = r.field (.accRaw i) * 49 / 10240 := rfl
    obtain ⟨hlo, hhi⟩ := s16_rat_bounds (r.acc.get i)
    rw [hvalue, show r.field (.accRaw i) = s16 (r.acc.get i) from rfl]
    exact ⟨by ring, by ring, by linarith, by linarith⟩
  case gyro =>
    have hvalue : r.value (.gyroRaw i) = r.field (.gyroRaw i) * 125 / 2048 := rfl
    obtain ⟨hlo, hhi⟩ := s16_rat_bounds (r.gyro.get i)
    rw [hvalue, show r.field (.gyroRaw i) = s16 (r.gyro.get i) from rfl]
    exact ⟨by ring, by ring, by linarith, by linarith⟩
  case angle =>
    have hvalue : r.value (.angleRaw i) = r.field (.angleRaw i) * 45 / 8192 := rfl
    obtain ⟨hlo, hhi⟩ := s16_rat_bounds (r.angle.get i)
    rw [hvalue, show r.field (.angleRaw i) = s16 (r.angle.get i) from rfl]
    exact ⟨by ring, by ring, by linarith, by linarith⟩
  case quat =>
    have hvalue : r.value (.quatRaw i) = (r.field (.quatRaw i) : ℚ) / 32768 := rfl
    obtain ⟨hlo, hhi⟩ := s16_rat_bounds (r.quat.get i)
    rw [hvalue, show r.field (.quatRaw i) = s16 (r.quat.get i) from rfl]
    exact ⟨rfl, by linarith, by linarith⟩
  case temperature =>
    intro x hx
    fin_cases hx
    · exact ⟨rfl, s16_hundredth_bounds r.tempRaw⟩
    · exact ⟨rfl, s16_hundredth_bounds r.magTempRaw⟩
  case unsigned =>
    intro x hx
    fin_cases hx <;> exact ⟨rfl, u16_rat_bounds _⟩
  case byte =>
    intro x hx
    fin_cases hx <;> exact ⟨rfl, byte_rat_bounds _⟩
  case unreliable =>
    intro x
    cases x <;> simp [RecordField.unreliable]

end Sys2Proof.Machine

/-! The Request Encoder's statements, the rest of them (45_request_encoder.md). -/

namespace Sys2Proof.Machine

/-- Settles O53. -/
theorem readRequestCarriesTheMask : Obligations.ReadRequestCarriesTheMask := by
  intro s mask
  rw [exec_encRead, execEncRead, sendRequest_eq]

/-- Settles O55. -/
theorem configurationFormsCopyTheirOperands : Obligations.ConfigurationFormsCopyTheirOperands := by
  intro s reg val r
  refine ⟨?cfg, ?unlock, ?rate, ?save⟩
  case cfg => rw [exec_encCfg, execEncCfg, sendRequest_eq]
  case unlock => rw [exec_unlock, execUnlock, sendRequest_eq]
  case rate => rw [exec_setRate, execSetRate, sendRequest_eq]
  case save => rw [exec_save, execSave, sendRequest_eq]

end Sys2Proof.Machine
